-- ==== Sys2Proof/Word.lean ====
section
/-! DEFINITION. The two value types of the machine (00_scope.md R6): every register, address and memory byte is
an unsigned bit vector of one of these widths. -/

namespace Sys2Proof

/-- `u8`: a general register, a memory byte, an opcode or an operand byte (R5 `XLEN8` = 8, R6). -/
abbrev Byte := BitVec 8

/-- `u16`: PC, SP, a CPU-visible address, a pair view (R5 `ALEN` = 16, R6). -/
abbrev Word := BitVec 16

end Sys2Proof
end

