-- ==== Sys2Proof/Machine/Operands.lean ====
section
/-! DEFINITION. Bit slices, byte order and 16-bit address arithmetic (00_scope.md R7, R8, R9), and the one operand
form of the instruction set, the absolute address `a16` (30_encoding.md R82). -/

namespace Sys2Proof.Machine

/-- `zext_16(b)` (R8). -/
def zext16 (b : Byte) : Word := b.setWidth 16

/-- `{hi, lo}` = `(zext_16(hi) << 8) | zext_16(lo)` (R8). -/
def concatBytes (hi lo : Byte) : Word := (zext16 hi <<< 8) ||| zext16 lo

/-- `v[15:8]` (R7). -/
def highByte (v : Word) : Byte := v.extractLsb' 8 8

/-- `v[7:0]` (R7). -/
def lowByte (v : Word) : Byte := v.extractLsb' 0 8

/-- `a +16 n` = `(a + n) mod 0x10000` (R9, decision D5; DESIGN CHOICE, log entry 9). -/
def add16 (a : Word) (n : Nat) : Word := a + BitVec.ofNat 16 n

/-- The target of `Jp(lo, hi)`: the absolute address the two raw operand bytes compose (R82, R120). -/
def jumpTarget (lo hi : Byte) : Word := concatBytes hi lo

end Sys2Proof.Machine
end

