-- ==== Sys2Proof/Syntax.lean ====
section
/-! DEFINITION. The instructions: one constructor per row of spec/opcode_table.json, the closed two-constructor
type of 30_encoding.md R87 ("Nop" and "Jp(lo, hi)"). -/

namespace Sys2Proof

/-- The decoded instruction (R87, R39). It is not state: it exists between decode and execute of one step. -/
inductive Instr where
  /-- `NOP`, no fields (R115). -/
  | nop
  /-- `JP a16`, carrying its two raw operand bytes, low byte first (R120, R82, conflict C8). -/
  | jp (lo hi : Byte)
deriving DecidableEq, Repr

end Sys2Proof
end

