-- ==== Sys2Proof/Decode.lean ====
section
/-! DEFINITION. The decoder and the encoder (30_encoding.md R80 to R91; 40_cycle.md R104). Decoding is pure and
total; the two ways it can fail are named. -/

namespace Sys2Proof

open Sys2Proof.Machine (lowByte highByte)

/-- The two implemented opcodes (R83). -/
inductive Opcode where
  | nop
  | jp
deriving DecidableEq, Repr

/-- One row of the opcode map: byte 0 selects the row when `byte & mask = value` (R91). -/
structure OpcodeRow where
  value : Byte
  mask : Byte
  opcode : Opcode
deriving DecidableEq, Repr

/-- Does the opcode byte select the row (R91)? -/
def OpcodeRow.selects (row : OpcodeRow) (op : Byte) : Bool := op &&& row.mask == row.value

/-- The complete opcode map (R83, opcode_table.json): two rows, both matched on all eight bits. -/
def opcodeMap : List OpcodeRow :=
  [{ value := 0x00#8, mask := 0xFF#8, opcode := .nop },
   { value := 0xC3#8, mask := 0xFF#8, opcode := .jp }]

/-- The opcode a byte selects; `none` for the 254 unimplemented ones (R84, R91). -/
def selectOpcode (op : Byte) : Option Opcode :=
  (opcodeMap.find? (fun row => row.selects op)).map OpcodeRow.opcode

/-- `Decode(op)` of R104. `operand n` reads the byte at distance `n` from the opcode byte and may fail in its own
way; `unimplemented` is the failure of an opcode outside the map. The low operand byte is read before the high one
(R62, decision D6; DESIGN CHOICE, log entry 10), and an unimplemented opcode reads no operand (R84). -/
def decodeOpcode {ε : Type} (operand : Nat → Except ε Byte) (unimplemented : ε) (op : Byte) : Except ε Instr :=
  match selectOpcode op with
  | none => .error unimplemented
  | some .nop => .ok .nop
  | some .jp =>
    match operand 1 with
    | .error e => .error e
    | .ok lo =>
      match operand 2 with
      | .error e => .error e
      | .ok hi => .ok (.jp lo hi)

/-- Why a byte sequence does not begin with an instruction. -/
inductive DecodeError where
  /-- The opcode byte has no mapping (R84). -/
  | unimplementedOpcode (byte : Byte)
  /-- The sequence has no byte at this distance from its start. -/
  | endOfBytes (offset : Nat)
deriving DecidableEq, Repr

/-- The byte at distance `n` from the start of a sequence. -/
def byteAt (bytes : List Byte) (n : Nat) : Except DecodeError Byte :=
  match bytes[n]? with
  | some b => .ok b
  | none => .error (.endOfBytes n)

/-- The length in bytes of an instruction (R80). -/
def Instr.length : Instr → Nat
  | .nop => 1
  | .jp _ _ => 3

/-- Decode the instruction a byte sequence begins with; the rest of the sequence comes back with it
(DEDUCED, log entry 17: the machine decodes with the same `decodeOpcode`, reading at PC). -/
def decode (bytes : List Byte) : Except DecodeError (Instr × List Byte) :=
  match byteAt bytes 0 with
  | .error e => .error e
  | .ok op =>
    match decodeOpcode (byteAt bytes) (.unimplementedOpcode op) op with
    | .error e => .error e
    | .ok i => .ok (i, bytes.drop i.length)

/-- The bytes of an instruction in ascending address order (R80, R82: low operand byte first). -/
def encode : Instr → List Byte
  | .nop => [0x00#8]
  | .jp lo hi => [0xC3#8, lo, hi]

/-- The instruction that the assembler's `JP a16` stands for (R88). -/
def Instr.jpAbsolute (a16 : Word) : Instr := .jp (lowByte a16) (highByte a16)

/-- The bytes of an instruction given as one number, numbered as spec/opcode_table.json numbers its bits (byte 0 in
bits 7..0, byte 1 in bits 15..8, byte 2 in bits 23..16); bits at and above `nbits` are zero. Three bytes are the
longest instruction (R80). -/
def tableWordBytes (nbits w : Nat) : List Byte :=
  let v := w % 2 ^ nbits
  [BitVec.ofNat 8 v, BitVec.ofNat 8 (v / 2 ^ 8), BitVec.ofNat 8 (v / 2 ^ 16)]

/-- What `decode` reads from an instruction given as one number; `none` where it refuses. -/
def decodeTableWord (nbits w : Nat) : Option Instr :=
  match decode (tableWordBytes nbits w) with
  | .ok (i, _) => some i
  | .error _ => none

end Sys2Proof
end

