-- ==== Sys2Proof/Config.lean ====
section
/-! DEFINITION. The implementation parameters of 00_scope.md R5: the constants the document fixes, and the
configuration of one machine (the parameters the document leaves open, each with the default the spec decides). -/

namespace Sys2Proof

/-- The two admitted values of `ROM_WINDOW_TOP` (R5, decision D1; DESIGN CHOICE, log entry 2). -/
inductive RomWindowTop where
  /-- 0x8000, the default: both ROM banks are in the window. -/
  | top8000
  /-- 0x4000: the fixed bank alone is in the window. -/
  | top4000
deriving DecidableEq, Repr

/-- The first CPU-visible address outside the ROM window (R5 `ROM_WINDOW_TOP`). -/
def RomWindowTop.addr : RomWindowTop → Word
  | .top8000 => 0x8000#16
  | .top4000 => 0x4000#16

/-- The parameters of R5's second group, fixed for a run (R42). The defaults are the spec's. -/
structure Config where
  /-- `ROM_WINDOW_TOP`, default 0x8000 (decision D1). -/
  romWindowTop : RomWindowTop := .top8000
  /-- `ROM_FILL`, the byte of every ROM bank position the source did not supply, 0x00 (decision D2). -/
  romFill : Byte := 0x00#8
  /-- `TRACE_ENABLE`, default true (decision D8). -/
  traceEnable : Bool := true
deriving DecidableEq, Repr

/-- The parameters at the spec's defaults. -/
def Config.default : Config := {}

/-- `CYCLES(op)` of R5: OPEN, a cycle count per opcode. No rule reads it and neither does this model (R166,
decision D15; DESIGN CHOICE, log entry 12). It has no body, so nothing can be proved of its values. -/
opaque Config.cycles : Byte → Nat

/-- `ROM_BANK_SIZE` (R5). -/
def romBankSize : Nat := 0x4000

/-- `ROM_IMAGE_MAX` (R5): the greatest number of bytes taken from the ROM source. -/
def romImageMax : Nat := 0x8000

/-- `RAM_REGION_SIZE` (R5): the size of each of the five non-ROM regions. -/
def ramRegionSize : Nat := 0x2000

/-- `PC_RESET` (R5, R40). -/
def pcReset : Word := 0x0100#16

/-- `SP_RESET` (R5, R40). -/
def spReset : Word := 0xFFFE#16

/-- `REG_RESET` (R5, R40): each of the eight 8-bit registers, F included. -/
def regReset : Byte := 0x00#8

end Sys2Proof
end

