-- ==== Sys2Proof/Machine/Memory.lean ====
section
/-! DEFINITION. The Memory component (20_memory.md): seven regions, each addressed by its own local offset from 0,
its read operation, and its construction from the ROM buffer. A region's contents are a list of (offset, byte)
cells in one canonical form. -/

namespace Sys2Proof.Machine

open Host (Cell)

/-- The seven regions of R50. -/
inductive Region where
  | rom0
  | romx
  | vram
  | xram
  | wram
  | echo
  | oam
deriving DecidableEq, Repr

/-- The size of a region in bytes (table of R50). -/
def Region.size : Region → Nat
  | .rom0 => romBankSize
  | .romx => romBankSize
  | .vram => ramRegionSize
  | .xram => ramRegionSize
  | .wram => ramRegionSize
  | .echo => ramRegionSize
  | .oam => ramRegionSize

/-- The contents of the seven regions (R50). Each list holds the bytes that differ from `unlistedByte`. -/
structure Memory where
  /-- Fixed ROM bank. -/
  rom0 : List Cell
  /-- Switchable ROM bank. -/
  romx : List Cell
  /-- Video RAM. -/
  vram : List Cell
  /-- Switchable RAM bank. -/
  xram : List Cell
  /-- Internal RAM. -/
  wram : List Cell
  /-- The echo of internal RAM: storage of its own, with no mirroring (R59; DESIGN CHOICE, log entry 7). -/
  echo : List Cell
  /-- Sprite-attribute memory. -/
  oam : List Cell
deriving DecidableEq, Repr

/-- The cells of one region. -/
def Memory.cells (m : Memory) : Region → List Cell
  | .rom0 => m.rom0
  | .romx => m.romx
  | .vram => m.vram
  | .xram => m.xram
  | .wram => m.wram
  | .echo => m.echo
  | .oam => m.oam

/-- Memory with the cells of one region replaced. -/
def Memory.setCells (m : Memory) (r : Region) (cs : List Cell) : Memory :=
  match r with
  | .rom0 => { m with rom0 := cs }
  | .romx => { m with romx := cs }
  | .vram => { m with vram := cs }
  | .xram => { m with xram := cs }
  | .wram => { m with wram := cs }
  | .echo => { m with echo := cs }
  | .oam => { m with oam := cs }

/-- What an offset that no cell lists reads as: 0x00, the contents of every RAM region after construction (R53)
and the default zero fill of the ROM banks (R52, decision D2; DESIGN CHOICE, log entry 3). -/
def unlistedByte : Byte := 0x00#8

/-- The byte at an offset. -/
def cellsRead : List Cell → Nat → Byte
  | [], _ => unlistedByte
  | (at', b) :: cs, off => if at' = off then b else cellsRead cs off

/-- The cells with one byte replaced, in canonical form. -/
def cellsWrite : List Cell → Nat → Byte → List Cell
  | [], off, b => if b = unlistedByte then [] else [(off, b)]
  | (at', x) :: cs, off, b =>
    if off < at' then (if b = unlistedByte then (at', x) :: cs else (off, b) :: (at', x) :: cs)
    else if off = at' then (if b = unlistedByte then cs else (off, b) :: cs)
    else (at', x) :: cellsWrite cs off b

/-- The canonical form, for cells whose offsets lie in `[lo, hi)`: offsets strictly rising, and no cell that lists
the byte an unlisted offset reads as. -/
def cellsWf (lo hi : Nat) : List Cell → Bool
  | [] => true
  | (at', b) :: cs => decide (lo ≤ at') && decide (at' < hi) && decide (b ≠ unlistedByte) && cellsWf (at' + 1) hi cs

/-- Is every region in canonical form, with every offset inside the region? -/
def Memory.wf (m : Memory) : Bool :=
  cellsWf 0 (Region.size .rom0) m.rom0 && cellsWf 0 (Region.size .romx) m.romx &&
  cellsWf 0 (Region.size .vram) m.vram && cellsWf 0 (Region.size .xram) m.xram &&
  cellsWf 0 (Region.size .wram) m.wram && cellsWf 0 (Region.size .echo) m.echo &&
  cellsWf 0 (Region.size .oam) m.oam

/-- `RegionRead(region, off)` (R55): the stored byte; no byte where the offset is outside the region. -/
def Memory.regionRead (m : Memory) (r : Region) (off : Nat) : Option Byte :=
  if off < r.size then some (cellsRead (m.cells r) off) else none

/-- Memory with one byte of a region replaced, unchanged where the offset is outside it. The machine has no write
path (R54, R57): only `State.withFetchWord`, the model's stand-in for loading another ROM, calls it. -/
def Memory.regionPlace (m : Memory) (r : Region) (off : Nat) (b : Byte) : Memory :=
  if off < r.size then m.setCells r (cellsWrite (m.cells r) off b) else m

/-- The bytes a list supplies from an offset on, as cells in canonical form. -/
def cellsOfBytes : Nat → List Byte → List Cell
  | _, [] => []
  | off, b :: bs => if b = unlistedByte then cellsOfBytes (off + 1) bs else (off, b) :: cellsOfBytes (off + 1) bs

/-- The image `img` of R52, up to the bytes that read as unlisted anyway: the first 0x8000 bytes of the source,
and after them the fill byte where it is not the unlisted one. -/
def romImage (fill : Byte) (rom : List Byte) : List Byte :=
  let supplied := rom.take romImageMax
  if fill = unlistedByte then supplied else supplied ++ List.replicate (romImageMax - supplied.length) fill

/-- Construction of Memory from the ROM buffer (R52, R53). -/
def Memory.load (fill : Byte) (rom : List Byte) : Memory :=
  { rom0 := cellsOfBytes 0 ((romImage fill rom).take romBankSize)
    romx := cellsOfBytes 0 ((romImage fill rom).drop romBankSize)
    vram := []
    xram := []
    wram := []
    echo := []
    oam := [] }

/-- `img[i]` of R52: the byte the load puts at image position `i` (below 0x8000). -/
def imageByte (fill : Byte) (rom : List Byte) (i : Nat) : Byte :=
  if i < romImageMax then rom.getD i fill else fill

end Sys2Proof.Machine
end

