-- ==== Sys2Proof/Machine/State.lean ====
section
/-! DEFINITION. The state of the machine (10_state.md R20, 20_memory.md R50), the reasons a step can stop, and the
state after reset (10_state.md R40, 70_reset_and_hazards.md R160). -/

namespace Sys2Proof.Machine

/-- The two faults of the core, the values of the fault latch other than `None` (R35, 60_exceptions.md R130). -/
inductive CoreFault where
  /-- Decode met an opcode byte with no mapping: the byte, and the address it was fetched from (R131). -/
  | unimplementedOpcode (byte : Byte) (addr : Word)
  /-- A byte read at or above `ROM_WINDOW_TOP`: the address of the read that failed (R132). -/
  | outOfRangeAccess (addr : Word)
deriving DecidableEq, Repr

/-- The trace events of 40_cycle.md R109. -/
inductive TraceEvent where
  | traceNop
  | traceJump (target : Word)
deriving DecidableEq, Repr

/-- The whole state. F is the only flags storage (R29, R30; DESIGN CHOICE, log entry 18). A to L, PC, SP, the fault latch and Memory are the spec's (R20); `trace` and `cfg` are the
model's own fields. -/
structure State where
  a : Byte
  b : Byte
  c : Byte
  d : Byte
  e : Byte
  f : Byte
  h : Byte
  l : Byte
  pc : Word
  sp : Word
  /-- The fault latch; `none` is "ready to fetch" (R35, R101). -/
  fault : Option CoreFault
  /-- The seven regions (R50). -/
  mem : Memory
  /-- What the trace port has emitted, newest event first (R109; DESIGN CHOICE, log entry 5). No rule reads it. -/
  trace : List TraceEvent
  /-- The parameters, fixed for a run (R5, R42; DESIGN CHOICE, log entry 1). No step writes it. -/
  cfg : Config
deriving DecidableEq, Repr

/-- Why the machine takes no step. -/
inductive Fault where
  /-- Raised by `step` alone, in a state whose fault latch is set: no step is enabled until reset (R101, R137,
  93_implementation_defined.md U14). Safe: the hardware takes no step there either. -/
  | stopped (cause : CoreFault)
deriving DecidableEq, Repr

/-- Why an instruction has no meaning. -/
inductive Refusal where
  /-- An instruction of the opcode table without a meaning, rejected by name in its arm of `exec`. No arm raises
  it: both instructions have their meaning. Safe. -/
  | notModelled (mnemonic : String)
deriving DecidableEq, Repr

/-- The state the reset sequence of R160 builds from a ROM buffer: Memory loaded (R52, R53), the registers at the
values of R40, the fault latch clear, nothing traced yet. -/
def State.construct (cfg : Config) (rom : List Byte) : State :=
  { a := regReset
    b := regReset
    c := regReset
    d := regReset
    e := regReset
    f := regReset
    h := regReset
    l := regReset
    pc := pcReset
    sp := spReset
    fault := none
    mem := Memory.load cfg.romFill rom
    trace := []
    cfg := cfg }

/-- The machine right after reset, at the default parameters. The ROM buffer is an input of the reset sequence;
here it is the one of length 0, so that no program is invented (R52, R133; DESIGN CHOICE, log entry 6). -/
def State.reset : State := State.construct Config.default []

end Sys2Proof.Machine
end

