-- ==== Sys2Proof/Machine/Ops.lean ====
section
/-! DEFINITION. The operations over the state: the register and pair accessors (10_state.md R21 to R28), the core's
read interface (20_memory.md R56), fetch and decode at PC (40_cycle.md R103, R104), taking a fault
(60_exceptions.md R137), and the trace port (40_cycle.md R109). Leaving the stopped condition is in Machine/Reset.lean. -/

namespace Sys2Proof.Machine

/-- The names of the eight 8-bit registers (R21). They have no numbers. -/
inductive Reg where
  | a
  | b
  | c
  | d
  | e
  | f
  | h
  | l
deriving DecidableEq, Repr

/-- The names of the four pair views (R24). -/
inductive Pair where
  | af
  | bc
  | de
  | hl
deriving DecidableEq, Repr

/-- The register that is a view's high byte (table of R24). -/
def Pair.high : Pair → Reg
  | .af => .a
  | .bc => .b
  | .de => .d
  | .hl => .h

/-- The register that is a view's low byte (table of R24). -/
def Pair.low : Pair → Reg
  | .af => .f
  | .bc => .c
  | .de => .e
  | .hl => .l

/-- `r8[X]` (R10). -/
def State.r8 (s : State) : Reg → Byte
  | .a => s.a
  | .b => s.b
  | .c => s.c
  | .d => s.d
  | .e => s.e
  | .f => s.f
  | .h => s.h
  | .l => s.l

/-- `r8[X] <- v` (R10, R22): all eight bits are stored, F's low nibble included (R29). -/
def State.setR8 (s : State) (r : Reg) (v : Byte) : State :=
  match r with
  | .a => { s with a := v }
  | .b => { s with b := v }
  | .c => { s with c := v }
  | .d => { s with d := v }
  | .e => { s with e := v }
  | .f => { s with f := v }
  | .h => { s with h := v }
  | .l => { s with l := v }

/-- `rp[XY]` (R25): computed, not stored. -/
def State.rp (s : State) (p : Pair) : Word := concatBytes (s.r8 p.high) (s.r8 p.low)

/-- `rp[XY] <- v` (R26). -/
def State.setRp (s : State) (p : Pair) (v : Word) : State :=
  (s.setR8 p.high (highByte v)).setR8 p.low (lowByte v)

/-- `pc <- target` (R10). -/
def State.setPc (s : State) (target : Word) : State := { s with pc := target }

/-- `trace(e)` (R12, R109): emits the event when `TRACE_ENABLE` is true, and does nothing otherwise. -/
def State.emit (s : State) (ev : TraceEvent) : State :=
  if s.cfg.traceEnable then { s with trace := ev :: s.trace } else s

/-- The trace of the run so far, in step order (R109). -/
def State.traceInOrder (s : State) : List TraceEvent := s.trace.reverse

/-- The region and local offset an address reads, `none` outside the ROM window (R56, map of R63,
decision D1; DESIGN CHOICE, log entry 2). -/
def State.locate (s : State) (addr : Word) : Option (Region × Nat) :=
  if addr < 0x4000#16 then some (.rom0, addr.toNat)
  else if addr < s.cfg.romWindowTop.addr then some (.romx, addr.toNat - 0x4000)
  else none

/-- `MemRead(addr, 1)`, also `RomRead(addr)` (R11, R56): the core's only path to Memory (R57).
The fault records the address of the read (decision D7; DESIGN CHOICE, log entry 11). -/
def State.memRead (s : State) (addr : Word) : Except CoreFault Byte :=
  match s.locate addr with
  | none => .error (.outOfRangeAccess addr)
  | some (r, off) =>
    match s.mem.regionRead r off with
    | some byte => .ok byte
    | none => .error (.outOfRangeAccess addr)

/-- Fetch (R103): the opcode byte at PC. It writes nothing. -/
def State.fetch (s : State) : Except CoreFault Byte := s.memRead s.pc

/-- Decode of an opcode byte fetched at PC (R104, R86). It writes nothing. -/
def State.decodeFetched (s : State) (op : Byte) : Except CoreFault Instr :=
  decodeOpcode (fun n => s.memRead (add16 s.pc n)) (.unimplementedOpcode op s.pc) op

/-- The first two phases of a step (R102): the instruction at PC, or the first fault reached (R136). -/
def State.fetchDecode (s : State) : Except CoreFault Instr :=
  match s.fetch with
  | .error f => .error f
  | .ok op => s.decodeFetched op

/-- `raise F` (R12, R137): the latch is set and nothing else changes; there is no vector, no saved copy, no handler
(decision D3; DESIGN CHOICE, log entry 4).
`step` calls it only while the latch is `none`, so a fault is never overwritten (R35, R138). -/
def State.raise (s : State) (f : CoreFault) : State := { s with fault := some f }

/-- Memory with one byte at a CPU-visible address replaced, unchanged outside the ROM window. The machine has no
write path (R57): `State.withFetchWord` alone uses it (DESIGN CHOICE, log entry 14). -/
def State.placeByte (s : State) (addr : Word) (byte : Byte) : State :=
  match s.locate addr with
  | none => s
  | some (r, off) => { s with mem := s.mem.regionPlace r off byte }

/-- Bytes placed at consecutive addresses from `addr` on (DESIGN CHOICE, log entry 14). -/
def State.placeBytes (s : State) (addr : Word) : List Byte → State
  | [] => s
  | byte :: rest => (s.placeByte addr byte).placeBytes (add16 addr 1) rest

end Sys2Proof.Machine
end

