-- ==== Sys2Proof/Machine/Jump.lean ====
section
/-! DEFINITION. The absolute jump (42_jp.md), the only control transfer of the instruction set. -/

namespace Sys2Proof.Machine

/-- `Execute(Jp(lo, hi))` (R120): PC is replaced outright by the composed target, unchecked; the event
`TraceJump(target)`; nothing else. -/
def execJp (lo hi : Byte) (s : State) : Host.Outcome State Fault Refusal :=
  .next ((s.setPc (jumpTarget lo hi)).emit (.traceJump (jumpTarget lo hi)))

end Sys2Proof.Machine
end

