-- ==== Sys2Proof/Machine/Nop.lean ====
section
/-! DEFINITION. The no-operation (41_nop.md). -/

namespace Sys2Proof.Machine

/-- `Execute(Nop)` (R115): PC advances by exactly 1; the event `TraceNop`; nothing else. -/
def execNop (s : State) : Host.Outcome State Fault Refusal :=
  .next ((s.setPc (add16 s.pc 1)).emit .traceNop)

end Sys2Proof.Machine
end

