-- ==== Sys2Proof/Machine/Dispatch.lean ====
section
/-! DEFINITION. Execute dispatch (40_cycle.md R105): one arm per constructor of the closed instruction type. -/

namespace Sys2Proof.Machine

/-- `Execute(ins)` (R105). It does not look at the fault latch: `step` alone does (R101; DESIGN CHOICE, log entry 15). -/
def exec (i : Instr) (s : State) : Host.Outcome State Fault Refusal :=
  match i with
  | .nop => Sys2Proof.Machine.execNop s
  | .jp lo hi => Sys2Proof.Machine.execJp lo hi s

end Sys2Proof.Machine
end

