-- ==== Sys2Proof/Machine/Step.lean ====
section
/-! DEFINITION. One step of the core (40_cycle.md R101, R102). -/

namespace Sys2Proof.Machine

/-- `Step()` (R102). While the latch is set no step is enabled (R101, decision D3; DESIGN CHOICE, log entry 4: the
outcome is then `Fault.stopped`). A fault of fetch or decode ends the step in
the next state `s.raise f`, in which the latch alone has changed; otherwise the decoded instruction is executed. -/
def step (s : State) : Host.Outcome State Fault Refusal :=
  match s.fault with
  | some f => .fault (.stopped f)
  | none =>
    match s.fetchDecode with
    | .error f => .next (s.raise f)
    | .ok i => exec i s

/-- The state with an instruction, given as one number (see `tableWordBytes`), stored at PC, where `step` fetches:
the stand-in for a ROM that holds those bytes there (DESIGN CHOICE, log entries 6 and 14). -/
def State.withFetchWord (s : State) (nbits w : Nat) : State := s.placeBytes s.pc (tableWordBytes nbits w)

end Sys2Proof.Machine
end

