-- ==== Sys2Proof/Machine/Flags.lean ====
section
/-! DEFINITION. Named accessors of the flags in F (10_state.md R29, R30). The instruction set computes no flag: no
instruction reads, tests, sets or clears one (R29 (2), 40_cycle.md R110). The bit positions are general knowledge
that R29 (3) supplies, not the document's: PRESUMED, log entry 8. -/

namespace Sys2Proof.Machine

/-- The four flags the document names, in its order (R29). -/
inductive Flag where
  | zero
  | subtract
  | halfCarry
  | carry
deriving DecidableEq, Repr

/-- The flag's bit of F (R29 (3); PRESUMED, log entry 8). -/
def Flag.bit : Flag → Nat
  | .zero => 7
  | .subtract => 6
  | .halfCarry => 5
  | .carry => 4

/-- The byte with only the flag's bit set. -/
def Flag.mask (fl : Flag) : Byte := 1#8 <<< fl.bit

/-- The flag as F holds it. -/
def State.flag (s : State) (fl : Flag) : Bool := s.f.getLsbD fl.bit

/-- F with one flag replaced, its other seven bits kept. -/
def State.setFlag (s : State) (fl : Flag) (v : Bool) : State :=
  s.setR8 .f (if v then s.f ||| fl.mask else s.f &&& ~~~fl.mask)

end Sys2Proof.Machine
end

