-- ==== Sys2Proof/Machine/Reset.lean ====
section
/-! DEFINITION. Launch and reset (70_reset_and_hazards.md R160, R161) and the two load conditions of the error
taxonomy that are the host's and not the core's (60_exceptions.md R130, R133). -/

namespace Sys2Proof.Machine

/-- Conditions (a) and (b) of the taxonomy (table of R130). Neither sets the fault latch (R133). -/
inductive LoadCondition where
  /-- (a): there is no ROM byte buffer. -/
  | romUnavailable
  /-- (b): the source supplies fewer than 0x8000 bytes. -/
  | romTruncated
deriving DecidableEq, Repr

/-- The load condition of a ROM source, `none` as the source when it cannot be opened or read (R130, R133). -/
def loadCondition : Option (List Byte) → Option LoadCondition
  | none => some .romUnavailable
  | some rom => if rom.length < romImageMax then some .romTruncated else none

/-- Launch (R160): without a ROM buffer Memory is never built and the core is never reset, so there is no machine
state (R133, decision D17); a short source is filled and the core runs. -/
def State.launch (cfg : Config) (source : Option (List Byte)) : Option State :=
  match source with
  | none => none
  | some rom => some (State.construct cfg rom)

/-- Reset applied to a machine at any time, the one way out of the stopped condition (R138, R161, decision D11;
DESIGN CHOICE, log entry 13): the whole sequence of R160 with the same or a new ROM buffer. Nothing of the earlier
run survives but the machine's parameters. -/
def State.applyReset (s : State) (rom : List Byte) : State := State.construct s.cfg rom

end Sys2Proof.Machine
end

