-- ==== Sys2Proof/Safety.lean ====
section
/-! DEFINITION. The terms the claims use: runs, what the host can observe of a state, the invariant every step
keeps, and the two relations between states that the noninterference claims are about. -/

namespace Sys2Proof.Machine

/-- `t` is the state after exactly `k` steps from `s` (40_cycle.md R106). -/
def StepsTo : Nat → State → State → Prop
  | 0, s, t => s = t
  | k + 1, s, t => ∃ u, step s = .next u ∧ StepsTo k u t

/-- What the host can read between steps: every register, PC, SP, the fault latch and the trace (00_scope.md R14
interface 5). -/
structure Observation where
  regs : List Byte
  pc : Word
  sp : Word
  fault : Option CoreFault
  trace : List TraceEvent
deriving DecidableEq, Repr

/-- The observation of a state (R14); the registers in the document's order A, B, C, D, E, F, H, L (R21). -/
def State.observe (s : State) : Observation :=
  { regs := [s.a, s.b, s.c, s.d, s.e, s.f, s.h, s.l]
    pc := s.pc
    sp := s.sp
    fault := s.fault
    trace := s.traceInOrder }

/-- A latched fault is the one that fetch and decode at PC report: the stop is precise, and PC is the address of
the offending opcode byte (60_exceptions.md R137). -/
def State.LatchSound (s : State) : Prop :=
  match s.fault with
  | none => True
  | some f => s.fetchDecode = .error f

/-- The invariant every step keeps: Memory is in canonical form, and the latch is sound. -/
def State.Inv (s : State) : Prop := s.mem.wf = true ∧ s.LatchSound

/-- The two states are equal but for the contents of the five regions no address reaches (20_memory.md R59). -/
def AgreeOutsideRam (s t : State) : Prop :=
  t = { s with mem := { t.mem with rom0 := s.mem.rom0, romx := s.mem.romx } }

/-- The two states agree on all that decides the sequence of PC values and faults: PC, the latch, the two ROM banks
and the top of the ROM window (40_cycle.md R108). Registers, SP, the other regions and the trace may differ. -/
structure AgreeOnControl (s t : State) : Prop where
  pc : s.pc = t.pc
  fault : s.fault = t.fault
  rom0 : s.mem.rom0 = t.mem.rom0
  romx : s.mem.romx = t.mem.romx
  top : s.cfg.romWindowTop = t.cfg.romWindowTop

end Sys2Proof.Machine
end

