-- ==== Sys2Proof/WellFormed.lean ====
section
/-! DEFINITION. Well-formedness. A decoded instruction is always well formed: its operands are bytes by type and
30_encoding.md R90 validates none of them. What can be ill formed is the sequence of bytes that is to be one
instruction (R80, R81, R84); each way of being so has a name here. -/

namespace Sys2Proof

/-- Well-formedness of a decoded instruction: every one is (R90: "Any pair of byte values is a legal operand"). -/
def Instr.wf : Instr → Bool
  | .nop => true
  | .jp _ _ => true

/-- The ways a byte sequence can fail to be exactly one instruction. -/
inductive EncodingDefect where
  /-- No opcode byte at all (R80: the first byte is the opcode). -/
  | noOpcode
  /-- The first byte is one of the 254 unimplemented opcodes (R84). -/
  | unimplementedOpcode (byte : Byte)
  /-- The opcode's format has another length (R80, R81). -/
  | wrongLength (expected actual : Nat)
deriving DecidableEq, Repr

/-- The length the opcode byte alone decides (R81); an unimplemented opcode has none. -/
def opcodeLength (op : Byte) : Option Nat :=
  if op = 0x00#8 then some 1 else if op = 0xC3#8 then some 3 else none

/-- Is the byte sequence exactly one instruction, in the formats of R80? -/
def checkEncoding : List Byte → Except EncodingDefect Unit
  | [] => .error .noOpcode
  | op :: rest =>
    match opcodeLength op with
    | none => .error (.unimplementedOpcode op)
    | some n => if rest.length + 1 = n then .ok () else .error (.wrongLength n (rest.length + 1))

/-- `checkEncoding` as a Boolean. -/
def encodingWf (bytes : List Byte) : Bool :=
  match checkEncoding bytes with
  | .ok _ => true
  | .error _ => false

end Sys2Proof
end

