-- ==== Sys2Proof/Certificates/Slice0/Obligations.lean ====
section
/-! DEFINITION. The statements for the provers, each from the numbered rules of spec/. Where a rule carries a
decision of the spec (D<n> of 92_eei_decisions.md) or is marked derived there, the docstring says so. -/

open Sys2Proof Sys2Proof.Machine

/-! ### Registers, pair views and flags (10_state.md) -/

/-- R25: each of the four views reads as `(high << 8) | low`, first-named register high, and so as the number
`256 * high + low`. -/
def Obligations.PairReadComposesHighLow : Prop :=
  ∀ s : State,
    (s.rp .af = (s.a.setWidth 16 <<< 8) ||| s.f.setWidth 16 ∧ (s.rp .af).toNat = 256 * s.a.toNat + s.f.toNat) ∧
    (s.rp .bc = (s.b.setWidth 16 <<< 8) ||| s.c.setWidth 16 ∧ (s.rp .bc).toNat = 256 * s.b.toNat + s.c.toNat) ∧
    (s.rp .de = (s.d.setWidth 16 <<< 8) ||| s.e.setWidth 16 ∧ (s.rp .de).toNat = 256 * s.d.toNat + s.e.toNat) ∧
    (s.rp .hl = (s.h.setWidth 16 <<< 8) ||| s.l.setWidth 16 ∧ (s.rp .hl).toNat = 256 * s.h.toNat + s.l.toNat)

/-- R26: a pair write stores bits 15:8 in the first-named register and bits 7:0 in the second, and changes nothing
else; no bit is dropped or forced, for AF as for the others. -/
def Obligations.PairWriteSplitsHighLow : Prop :=
  ∀ (s : State) (v : Word),
    s.setRp .af v = { s with a := v.extractLsb' 8 8, f := v.extractLsb' 0 8 } ∧
    s.setRp .bc v = { s with b := v.extractLsb' 8 8, c := v.extractLsb' 0 8 } ∧
    s.setRp .de v = { s with d := v.extractLsb' 8 8, e := v.extractLsb' 0 8 } ∧
    s.setRp .hl v = { s with h := v.extractLsb' 8 8, l := v.extractLsb' 0 8 }

/-- R27: write then read gives the value written, for every view and every 16-bit value; and writing back what was
read leaves every register unchanged. The second clause is the sentence R27 itself marks derived, from R25 and R26, so
the whole is labelled derived. -/
def Obligations.PairRoundTripBothWays : Prop :=
  ∀ (s : State) (p : Pair) (v : Word), (s.setRp p v).rp p = v ∧ s.setRp p (s.rp p) = s

/-- R22 (marked derived there): no register is hardwired. Each of the eight stores any byte and returns it when read;
the write changes no other register, nor PC, SP, the latch, Memory, the trace or the parameters. -/
def Obligations.RegisterStoresAnyByte : Prop :=
  ∀ (s : State) (r : Reg) (v : Byte),
    (s.setR8 r v).r8 r = v ∧ (∀ r', r' ≠ r → (s.setR8 r v).r8 r' = s.r8 r') ∧
    (s.setR8 r v).pc = s.pc ∧ (s.setR8 r v).sp = s.sp ∧ (s.setR8 r v).fault = s.fault ∧
    (s.setR8 r v).mem = s.mem ∧ (s.setR8 r v).trace = s.trace ∧ (s.setR8 r v).cfg = s.cfg

/-- R28 (marked derived there): every register is in exactly one view; a register write changes exactly the view that
contains the register (and does change it, if it changes the register); a pair write changes exactly its two
registers; writes to two different views commute. -/
def Obligations.PairViewsAliasOnlyTheirRegisters : Prop :=
  (∀ r : Reg, ∃ p : Pair, (p.high = r ∨ p.low = r) ∧ ∀ q : Pair, q.high = r ∨ q.low = r → q = p) ∧
  (∀ (s : State) (r : Reg) (v : Byte) (p : Pair), p.high ≠ r → p.low ≠ r → (s.setR8 r v).rp p = s.rp p) ∧
  (∀ (s : State) (r : Reg) (v : Byte) (p : Pair), p.high = r ∨ p.low = r → v ≠ s.r8 r →
    (s.setR8 r v).rp p ≠ s.rp p) ∧
  (∀ (s : State) (p : Pair) (v : Word) (r : Reg), r ≠ p.high → r ≠ p.low → (s.setRp p v).r8 r = s.r8 r) ∧
  (∀ (s : State) (p : Pair) (v : Word),
    (s.setRp p v).pc = s.pc ∧ (s.setRp p v).sp = s.sp ∧ (s.setRp p v).mem = s.mem) ∧
  (∀ (s : State) (p q : Pair) (v w : Word), p ≠ q → (s.setRp p v).setRp q w = (s.setRp q w).setRp p v)

/-- R29 with the flag positions it supplies from general knowledge (the model's: log entry 8). A flag reads the bit
last written to it; writing one changes no other flag, no bit of F's low nibble, and nothing but F. -/
def Obligations.FlagWriteTouchesOneBit : Prop :=
  ∀ (s : State) (fl : Flag) (v : Bool),
    (s.setFlag fl v).flag fl = v ∧
    (∀ fl', fl' ≠ fl → (s.setFlag fl v).flag fl' = s.flag fl') ∧
    (s.setFlag fl v).f.extractLsb' 0 4 = s.f.extractLsb' 0 4 ∧
    ∃ x : Byte, s.setFlag fl v = { s with f := x }

/-! ### Memory (20_memory.md) -/

/-- R55, with the sizes of R50: inside the region the stored byte, outside it no byte; the core's read interface
never asks for an offset outside the region, and an address that is in no region is an `OutOfRangeAccess`. That this
fault records the address of the read is decision D7 (R132; log entry 11), and which addresses are in no region is
decision D1 (log entry 2). -/
def Obligations.RegionReadStaysInBounds : Prop :=
  (∀ (m : Memory) (r : Region) (off : Nat),
    (off < r.size → m.regionRead r off = some (cellsRead (m.cells r) off)) ∧
    (r.size ≤ off → m.regionRead r off = none)) ∧
  (∀ r : Region, r.size = if r = .rom0 ∨ r = .romx then 0x4000 else 0x2000) ∧
  (∀ (s : State) (addr : Word) (r : Region) (off : Nat), s.locate addr = some (r, off) → off < r.size) ∧
  (∀ (s : State) (addr : Word), s.locate addr = none → s.memRead addr = .error (.outOfRangeAccess addr))

/-- R56 and the map of R63 (decision D1 above 0x4000; log entry 2): which byte each of the 65536 addresses reads,
for both admitted values of `ROM_WINDOW_TOP`. -/
def Obligations.ReadInterfaceFollowsAddressMap : Prop :=
  ∀ (s : State) (addr : Word),
    (addr.toNat < 0x4000 →
      ∃ byte, s.mem.regionRead .rom0 addr.toNat = some byte ∧ s.memRead addr = .ok byte) ∧
    (s.cfg.romWindowTop = .top8000 → 0x4000 ≤ addr.toNat → addr.toNat < 0x8000 →
      ∃ byte, s.mem.regionRead .romx (addr.toNat - 0x4000) = some byte ∧ s.memRead addr = .ok byte) ∧
    (s.cfg.romWindowTop = .top4000 → 0x4000 ≤ addr.toNat →
      s.memRead addr = .error (.outOfRangeAccess addr)) ∧
    (0x8000 ≤ addr.toNat → s.memRead addr = .error (.outOfRangeAccess addr))

/-- R52 (decision D2 for the fill): bank position `i` holds the source's byte, or the fill byte where the source is
short, in either bank; bytes at index 0x8000 and beyond have no effect. -/
def Obligations.RomLoadFillsBothBanks : Prop :=
  ∀ (fill : Byte) (rom : List Byte),
    (∀ i, i < 0x4000 →
      (Memory.load fill rom).regionRead .rom0 i = some (rom.getD i fill) ∧
      (Memory.load fill rom).regionRead .romx i = some (rom.getD (0x4000 + i) fill)) ∧
    Memory.load fill (rom.take 0x8000) = Memory.load fill rom

/-- R53: every byte of the five other regions is 0x00 after construction. -/
def Obligations.RamRegionsStartZero : Prop :=
  ∀ (fill : Byte) (rom : List Byte) (r : Region) (off : Nat), r ≠ .rom0 → r ≠ .romx → off < 0x2000 →
    (Memory.load fill rom).regionRead r off = some 0x00#8

/-- R54: no step, and so no run, changes any byte of any region. -/
def Obligations.MemoryIsConstantInEveryRun : Prop :=
  (∀ s t : State, step s = .next t → t.mem = s.mem) ∧
  (∀ (k : Nat) (s t : State), StepsTo k s t → t.mem = s.mem ∧
    ∀ (r : Region) (off : Nat), t.mem.regionRead r off = s.mem.regionRead r off)

/-- R68: whatever the run, a read inside the ROM window returns the image byte of that address, for every fill byte
and both window tops. The window above 0x4000 is decision D1 and the fill D2 (log entries 2 and 3). -/
def Obligations.FetchCoherentWithImage : Prop :=
  ∀ (cfg : Config) (rom : List Byte) (k : Nat) (s : State) (addr : Word),
    StepsTo k (State.construct cfg rom) s → addr.toNat < cfg.romWindowTop.addr.toNat →
    s.memRead addr = .ok (rom.getD addr.toNat cfg.romFill)

/-- The canonical form of the model's memory (log entry 3) is unique: two memories in it that read alike at every
location (R51) are equal data. -/
def Obligations.CanonicalMemoryIsUnique : Prop :=
  ∀ m n : Memory, m.wf = true → n.wf = true →
    (∀ (r : Region) (off : Nat), m.regionRead r off = n.regionRead r off) → m = n

/-- R59 (decision D14): the contents of the five non-ROM regions are unobservable. From two states that differ in
them alone, every run of one is matched by a run of the other that ends in states with the same observation. -/
def Obligations.RamRegionsAreUnobservable : Prop :=
  ∀ (k : Nat) (s t s' : State), AgreeOutsideRam s t → StepsTo k s s' →
    ∃ t', StepsTo k t t' ∧ AgreeOutsideRam s' t' ∧ s'.observe = t'.observe

/-! ### Encoding and the decoder (30_encoding.md) -/

/-- R83: 0x00 selects NOP, 0xC3 selects JP with the two bytes after it, low first; every other opcode byte selects
nothing. -/
def Obligations.OpcodeMapIsExact : Prop :=
  ∀ (op : Byte) (rest : List Byte),
    (op = 0x00#8 → decode (op :: rest) = .ok (.nop, rest)) ∧
    (∀ (lo hi : Byte) (tail : List Byte), op = 0xC3#8 → rest = lo :: hi :: tail →
      decode (op :: rest) = .ok (.jp lo hi, tail)) ∧
    (op ≠ 0x00#8 → op ≠ 0xC3#8 → decode (op :: rest) = .error (.unimplementedOpcode op))

/-- R91 (marked derived there): no opcode byte selects two rows of the opcode map. -/
def Obligations.OpcodeRowsDoNotOverlap : Prop :=
  opcodeMap.Pairwise (fun x y => ∀ op : Byte, ¬ (x.selects op = true ∧ y.selects op = true))

/-- Words written out from the spec's encodings (95_test_vectors.md W4, V-D1, V-D4, V-D9, V-D13, V-D14). -/
def Obligations.SpecWordsDecodeAsWritten : Prop :=
  decode [0xC3#8, 0x34#8, 0x12#8] = .ok (.jp 0x34#8 0x12#8, []) ∧
  decode [0x00#8] = .ok (.nop, []) ∧
  decode [0xC3#8, 0xC3#8, 0xC3#8] = .ok (.jp 0xC3#8 0xC3#8, []) ∧
  decode [0xCB#8, 0x00#8] = .error (.unimplementedOpcode 0xCB#8) ∧
  decode [0x43#8] = .error (.unimplementedOpcode 0x43#8) ∧
  decode [0xC1#8] = .error (.unimplementedOpcode 0xC1#8) ∧
  decodeTableWord 24 0x1234C3 = some (.jp 0x34#8 0x12#8) ∧
  decodeTableWord 8 0x00 = some .nop

/-- Decode and encode agree (R80, R83, R87, R90): for every instruction, with every operand byte at every value, its
encoding followed by any bytes decodes to it and leaves those bytes; and as one number of the table it decodes to
it. -/
def Obligations.DecodeInvertsEncode : Prop :=
  (∀ (i : Instr) (tail : List Byte), i.wf = true → decode (encode i ++ tail) = .ok (i, tail)) ∧
  decodeTableWord 8 0x00 = some .nop ∧
  (∀ lo hi : Byte,
    decodeTableWord 24 (0xC3 + 0x100 * lo.toNat + 0x10000 * hi.toNat) = some (.jp lo hi))

/-- The other direction (R80, R81, R83): a byte sequence that decodes is the encoding of what it decodes to, followed
by what is left, so every word has one meaning. -/
def Obligations.EncodeInvertsDecode : Prop :=
  ∀ (bytes tail : List Byte) (i : Instr), decode bytes = .ok (i, tail) → bytes = encode i ++ tail

/-- R80, R81, R84: a byte sequence is well formed exactly when it decodes with nothing left. -/
def Obligations.WellFormedBytesAreOneInstruction : Prop :=
  ∀ bytes : List Byte, encodingWf bytes = true ↔ ∃ i : Instr, decode bytes = .ok (i, [])

/-- R82: the two raw operand bytes are carried low first and composed by execute into the absolute address
`(hi << 8) | lo`, which is `256 * hi + lo`: neither scaled nor relative. The document's worked example is 0x1234. -/
def Obligations.ImmediateIsLittleEndianAbsolute : Prop :=
  (∀ (lo hi : Byte) (s : State),
    decode [0xC3#8, lo, hi] = .ok (.jp lo hi, []) ∧
    ∃ t, exec (.jp lo hi) s = .next t ∧ t.pc = (hi.setWidth 16 <<< 8) ||| lo.setWidth 16 ∧
      t.pc.toNat = 256 * hi.toNat + lo.toNat) ∧
  (∀ s : State, ∃ t, decode [0xC3#8, 0x34#8, 0x12#8] = .ok (.jp 0x34#8 0x12#8, []) ∧
    exec (.jp 0x34#8 0x12#8) s = .next t ∧ t.pc = 0x1234#16)

/-- R88 (decision D9): `JP a16` assembles to C3, a16[7:0], a16[15:8], and executing it sets PC to a16. -/
def Obligations.AssembledJumpReachesItsOperand : Prop :=
  ∀ (a16 : Word) (s : State),
    encode (.jpAbsolute a16) = [0xC3#8, a16.extractLsb' 0 8, a16.extractLsb' 8 8] ∧
    ∃ t, exec (.jpAbsolute a16) s = .next t ∧ t.pc = a16

/-! ### The step and the two instructions (40_cycle.md, 41_nop.md, 42_jp.md) -/

/-- A step runs the decoded instruction (R100, R102): where the latch is clear and the bytes at PC are those of a
well-formed instruction, the step is `exec` of it, with nothing added around it. -/
def Obligations.StepRunsDecodedInstruction : Prop :=
  (∀ (s : State) (i : Instr), s.fault = none → s.fetchDecode = .ok i → step s = exec i s) ∧
  (∀ (s : State) (i : Instr), s.fault = none → i.wf = true →
    (∀ (n : Nat) (byte : Byte), (encode i)[n]? = some byte →
      s.memRead (s.pc + BitVec.ofNat 16 n) = .ok byte) →
    step s = exec i s)

/-- R105: execute completes for every instruction and state; it writes PC and nothing else (the trace is an output):
every register, SP, the latch, every byte of Memory and the parameters are unchanged; and it reads no memory. -/
def Obligations.ExecuteWritesPcOnly : Prop :=
  ∀ (i : Instr) (s : State), ∃ t, exec i s = .next t ∧
    (i = .nop → t.pc = s.pc + 1#16) ∧
    (∀ lo hi : Byte, i = .jp lo hi → t.pc = (hi.setWidth 16 <<< 8) ||| lo.setWidth 16) ∧
    (∀ r : Reg, t.r8 r = s.r8 r) ∧ t.sp = s.sp ∧ t.fault = s.fault ∧ t.cfg = s.cfg ∧
    (∀ (r : Region) (off : Nat), t.mem.regionRead r off = s.mem.regionRead r off) ∧
    (∀ addr : Word, t.memRead addr = s.memRead addr) ∧
    t = { s with pc := t.pc, trace := t.trace } ∧
    (∀ m : Memory, exec i { s with mem := m } = .next { t with mem := m })

/-- R115, whole: the execute transition; the step that reaches it; the fetch fault in its place; and the corner cases
(1) at the last byte of the window, (3) no opcode is ever fetched at 0xFFFF, (4) a stretch of zero bytes runs as
NOPs. Case (2) is an instance of the first two clauses. -/
def Obligations.NopAdvancesPcByOne : Prop :=
  (∀ s : State, exec .nop s = .next { s with
    pc := s.pc + 1#16, trace := if s.cfg.traceEnable then .traceNop :: s.trace else s.trace }) ∧
  (∀ s : State, s.fault = none → s.memRead s.pc = .ok 0x00#8 → step s = exec .nop s) ∧
  (∀ s : State, s.fault = none → s.cfg.romWindowTop.addr.toNat ≤ s.pc.toNat →
    step s = .next { s with fault := some (.outOfRangeAccess s.pc) }) ∧
  (∀ s : State, s.fault = none → s.memRead s.pc = .ok 0x00#8 → s.pc.toNat + 1 = s.cfg.romWindowTop.addr.toNat →
    ∃ t, step s = .next t ∧ t.fault = none ∧ t.pc = s.cfg.romWindowTop.addr ∧
      step t = .next { t with fault := some (.outOfRangeAccess s.cfg.romWindowTop.addr) }) ∧
  (∀ (s : State) (op : Byte), s.memRead 0xFFFF#16 ≠ .ok op) ∧
  (∀ (n : Nat) (s : State), s.fault = none →
    (∀ j, j < n → s.memRead (s.pc + BitVec.ofNat 16 j) = .ok 0x00#8) →
    ∃ t, StepsTo n s t ∧ t.fault = none ∧ t.pc = s.pc + BitVec.ofNat 16 n)

/-- R120, whole: the execute transition; the step that reaches it, reading the opcode and then the low and the high
operand byte; the three faults before execute, PC keeping the address of the 0xC3 byte and no event emitted; and
that the target is not checked, so that one outside the window completes and faults at the following fetch. -/
def Obligations.JpReplacesPcOutright : Prop :=
  (∀ (lo hi : Byte) (s : State), exec (.jp lo hi) s = .next { s with
    pc := (hi.setWidth 16 <<< 8) ||| lo.setWidth 16
    trace := if s.cfg.traceEnable then .traceJump ((hi.setWidth 16 <<< 8) ||| lo.setWidth 16) :: s.trace
      else s.trace }) ∧
  (∀ (s : State) (lo hi : Byte), s.fault = none → s.memRead s.pc = .ok 0xC3#8 →
    s.memRead (s.pc + 1#16) = .ok lo → s.memRead (s.pc + 2#16) = .ok hi → step s = exec (.jp lo hi) s) ∧
  (∀ s : State, s.fault = none → s.cfg.romWindowTop.addr.toNat ≤ s.pc.toNat →
    step s = .next { s with fault := some (.outOfRangeAccess s.pc) }) ∧
  (∀ s : State, s.fault = none → s.memRead s.pc = .ok 0xC3#8 →
    s.cfg.romWindowTop.addr.toNat ≤ (s.pc + 1#16).toNat →
    step s = .next { s with fault := some (.outOfRangeAccess (s.pc + 1#16)) }) ∧
  (∀ s : State, s.fault = none → s.memRead s.pc = .ok 0xC3#8 →
    (s.pc + 1#16).toNat < s.cfg.romWindowTop.addr.toNat →
    s.cfg.romWindowTop.addr.toNat ≤ (s.pc + 2#16).toNat →
    step s = .next { s with fault := some (.outOfRangeAccess (s.pc + 2#16)) }) ∧
  (∀ (s : State) (lo hi : Byte) (target : Word), s.fault = none → s.memRead s.pc = .ok 0xC3#8 →
    s.memRead (s.pc + 1#16) = .ok lo → s.memRead (s.pc + 2#16) = .ok hi →
    target = (hi.setWidth 16 <<< 8) ||| lo.setWidth 16 → s.cfg.romWindowTop.addr.toNat ≤ target.toNat →
    ∃ t, step s = .next t ∧ t.fault = none ∧ t.pc = target ∧
      step t = .next { t with fault := some (.outOfRangeAccess target) })

/-- R121 (1) (marked derived there): a JP to its own address repeats the same step for ever, emitting
`TraceJump(p)` each time; nothing but the trace changes, and no fault is raised. -/
def Obligations.SelfJumpRepeatsForever : Prop :=
  ∀ (s : State) (k : Nat), s.fault = none → s.memRead s.pc = .ok 0xC3#8 →
    s.memRead (s.pc + 1#16) = .ok (s.pc.extractLsb' 0 8) →
    s.memRead (s.pc + 2#16) = .ok (s.pc.extractLsb' 8 8) →
    StepsTo k s { s with
      trace := (if s.cfg.traceEnable then List.replicate k (.traceJump s.pc) else []) ++ s.trace }

/-- R121 (5) and R61 (both marked derived there): a JP whose opcode is the last byte of the fixed bank takes its
operands from the switchable bank when `ROM_WINDOW_TOP` = 0x8000, and faults at 0x4000 when it is 0x4000. -/
def Obligations.JumpStraddlesBankBoundary : Prop :=
  ∀ (s : State) (lo hi : Byte), s.fault = none → s.pc = 0x3FFF#16 →
    s.mem.regionRead .rom0 0x3FFF = some 0xC3#8 →
    s.mem.regionRead .romx 0 = some lo → s.mem.regionRead .romx 1 = some hi →
    (s.cfg.romWindowTop = .top8000 → step s = exec (.jp lo hi) s) ∧
    (s.cfg.romWindowTop = .top4000 → step s = .next { s with fault := some (.outOfRangeAccess 0x4000#16) })

/-- R33 and R112 (R112 is marked derived there, and R33's wrap is decision D5): a step that executes leaves PC at
`pc + 1` for NOP, never wrapping, and at the composed operand for JP; nothing else moves PC. -/
def Obligations.PcMovesByNopOrJpOnly : Prop :=
  ∀ s t : State, step s = .next t →
    (t.fault ≠ none ∧ t.pc = s.pc) ∨
    (t.fault = none ∧ s.memRead s.pc = .ok 0x00#8 ∧ t.pc.toNat = s.pc.toNat + 1 ∧ s.pc.toNat < 0x8000) ∨
    (t.fault = none ∧ ∃ lo hi : Byte, s.memRead s.pc = .ok 0xC3#8 ∧ s.memRead (s.pc + 1#16) = .ok lo ∧
      s.memRead (s.pc + 2#16) = .ok hi ∧ t.pc = (hi.setWidth 16 <<< 8) ||| lo.setWidth 16)

/-- R109 (decision D8): one event for each executed instruction and none for a faulting step, when `TRACE_ENABLE` is
true; no event ever when it is false; and neither the trace nor the parameter bears on the rest of the state. -/
def Obligations.TraceRecordsExecutedInstructions : Prop :=
  (∀ s t : State, step s = .next t → t.fault ≠ none ∨ s.cfg.traceEnable = false → t.trace = s.trace) ∧
  (∀ s t : State, step s = .next t → t.fault = none → s.cfg.traceEnable = true →
    (s.memRead s.pc = .ok 0x00#8 ∧ t.trace = .traceNop :: s.trace) ∨
    (s.memRead s.pc = .ok 0xC3#8 ∧ t.trace = .traceJump t.pc :: s.trace)) ∧
  (∀ (s t : State) (events : List TraceEvent) (on : Bool), step s = .next t →
    ∃ events', step { s with trace := events, cfg := { s.cfg with traceEnable := on } } =
      .next { t with trace := events', cfg := { s.cfg with traceEnable := on } })

/-- R62, R84 and R86 (decision D6 in R62): what a step decodes depends on the byte at PC and, only where that byte is
0xC3, on the two bytes after it. -/
def Obligations.DecodeReadsOnlyItsOwnBytes : Prop :=
  ∀ s t : State, s.pc = t.pc → s.memRead s.pc = t.memRead t.pc →
    (s.memRead s.pc = .ok 0xC3#8 → s.memRead (s.pc + 1#16) = t.memRead (t.pc + 1#16) ∧
      s.memRead (s.pc + 2#16) = t.memRead (t.pc + 2#16)) →
    s.fetchDecode = t.fetchDecode

/-- R108 (marked derived there): the sequence of PC values and faults is decided by PC, the latch, the two ROM banks
and the window top. States that agree on these keep agreeing, step for step, whatever their registers, SP, other
regions and trace. -/
def Obligations.ControlDependsOnRomAlone : Prop :=
  ∀ (k : Nat) (s t s' : State), AgreeOnControl s t → StepsTo k s s' →
    ∃ t', StepsTo k t t' ∧ AgreeOnControl s' t'

/-! ### Faults and the stopped condition (60_exceptions.md) -/

/-- R131 and R84: any of the 254 other opcode bytes raises `UnimplementedOpcode(byte, pc)`: the latch is set and
nothing else changes, PC included; and the decode reads no operand byte, whatever a read of one would do. -/
def Obligations.UnimplementedOpcodeHaltsProgress : Prop :=
  (∀ (s : State) (op : Byte), s.fault = none → s.memRead s.pc = .ok op → op ≠ 0x00#8 → op ≠ 0xC3#8 →
    step s = .next { s with fault := some (.unimplementedOpcode op s.pc) }) ∧
  (∀ (op : Byte) (operand : Nat → Except CoreFault Byte) (u : CoreFault), op ≠ 0x00#8 → op ≠ 0xC3#8 →
    decodeOpcode operand u op = .error u)

/-- R136 (decision D6, payload D7; log entries 10 and 11): the faults a step can raise, each exactly when its
condition is the first that holds; at the last byte of the window a JP reports the low operand address. -/
def Obligations.FirstFaultingReadIsReported : Prop :=
  ∀ (s : State) (f : CoreFault), s.fault = none →
    (step s = .next { s with fault := some f } ↔
      (s.cfg.romWindowTop.addr.toNat ≤ s.pc.toNat ∧ f = .outOfRangeAccess s.pc) ∨
      (∃ op : Byte, s.memRead s.pc = .ok op ∧ op ≠ 0x00#8 ∧ op ≠ 0xC3#8 ∧ f = .unimplementedOpcode op s.pc) ∨
      (s.memRead s.pc = .ok 0xC3#8 ∧ s.cfg.romWindowTop.addr.toNat = s.pc.toNat + 1 ∧
        f = .outOfRangeAccess (s.pc + 1#16)) ∨
      (s.memRead s.pc = .ok 0xC3#8 ∧ s.cfg.romWindowTop.addr.toNat = s.pc.toNat + 2 ∧
        f = .outOfRangeAccess (s.pc + 2#16)))

/-- R137 (decision D3; log entry 4): a step that ends in a fault changes the latch and nothing else (registers, SP,
PC, Memory, trace), and the core is stopped after it. -/
def Obligations.FaultEntryIsPrecise : Prop :=
  ∀ s t : State, step s = .next t → t.fault ≠ none →
    ∃ f, s.fetchDecode = .error f ∧ t = { s with fault := some f } ∧ step t = .fault (.stopped f)

/-- R101 (decision D3; log entry 4): a step is enabled exactly when the latch is clear, and no instruction is ever
refused. -/
def Obligations.StepEnabledIffLatchClear : Prop :=
  (∀ s : State, (∃ t, step s = .next t) ↔ s.fault = none) ∧
  (∀ (s : State) (r : Refusal), step s ≠ .refused r)

/-- R102: an enabled step has a next state, in which either the latch is still clear and PC alone (beside the trace
output) may have changed, or the latch alone has changed. -/
def Obligations.StepChangesPcOrLatchOnly : Prop :=
  ∀ s : State, s.fault = none → ∃ t, step s = .next t ∧
    ((t.fault = none ∧ t = { s with pc := t.pc, trace := t.trace }) ∨
     (∃ f, t = { s with fault := some f }))

/-- R35 and R138 (decision D3): a latched fault is never overwritten or cleared by the machine: from a state with the
latch set there is no step, and along any run the latch is written at most once, by the last step. -/
def Obligations.LatchIsWrittenOnceAndStops : Prop :=
  (∀ (s : State) (f : CoreFault), s.fault = some f → step s = .fault (.stopped f)) ∧
  (∀ (k : Nat) (s t : State), StepsTo k s t → 0 < k → s.fault = none) ∧
  (∀ (j k : Nat) (s t u : State), StepsTo j s t → StepsTo k t u → t.fault ≠ none → k = 0 ∧ u = t)

/-! ### Reset and whole runs (10_state.md, 70_reset_and_hazards.md) -/

/-- R40, whole table, for every ROM buffer and parameter choice: the eight registers, the four views, PC, SP, the
latch, the two ROM banks and the five zero regions. In that table the views are marked derived (from R25), the latch's
value is decision D3, D11 (log entries 4 and 13), and the banks' fill is D2 (log entry 3). -/
def Obligations.ResetLeavesTheTableOfValues : Prop :=
  ∀ (cfg : Config) (rom : List Byte) (s : State), s = State.construct cfg rom →
    (∀ r : Reg, s.r8 r = 0x00#8) ∧ (∀ p : Pair, s.rp p = 0x0000#16) ∧
    s.pc = 0x0100#16 ∧ s.sp = 0xFFFE#16 ∧ s.fault = none ∧
    (∀ i, i < 0x4000 → s.mem.regionRead .rom0 i = some (rom.getD i cfg.romFill) ∧
      s.mem.regionRead .romx i = some (rom.getD (0x4000 + i) cfg.romFill)) ∧
    (∀ (r : Region) (off : Nat), r ≠ .rom0 → r ≠ .romx → off < 0x2000 → s.mem.regionRead r off = some 0x00#8)

/-- R161 (decision D11; log entry 13): reset applied in any state, stopped or not, gives a state ready to step, with
nothing of the earlier run; with the ROM of the run it leaves Memory as it was. -/
def Obligations.ResetRestartsTheMachine : Prop :=
  (∀ (s : State) (rom : List Byte), (s.applyReset rom).fault = none ∧ (s.applyReset rom).pc = 0x0100#16 ∧
    (∃ t, step (s.applyReset rom) = .next t) ∧
    ∀ s' : State, s'.cfg = s.cfg → s'.applyReset rom = s.applyReset rom) ∧
  (∀ (cfg : Config) (rom : List Byte) (k : Nat) (s : State), StepsTo k (State.construct cfg rom) s →
    s.applyReset rom = State.construct cfg rom ∧ (s.applyReset rom).mem = s.mem)

/-- R133 (decision D17): without a ROM buffer there is no machine state; a short source is no fault of the core. -/
def Obligations.LoadConditionsAreNotCoreFaults : Prop :=
  (∀ cfg : Config, State.launch cfg none = none ∧ loadCondition none = some .romUnavailable) ∧
  (∀ (cfg : Config) (rom : List Byte), ∃ s, State.launch cfg (some rom) = some s ∧ s.fault = none ∧
    (loadCondition (some rom) = some .romTruncated ↔ rom.length < 0x8000))

/-- R38: SP holds 0xFFFE at every step of every run, because no step writes it; and no step reads it. The eight
registers keep their reset value 0x00 in every run for the same reason (R23). -/
def Obligations.RegistersAndSpKeepResetValues : Prop :=
  (∀ (cfg : Config) (rom : List Byte) (k : Nat) (s : State), StepsTo k (State.construct cfg rom) s →
    s.sp = 0xFFFE#16 ∧ ∀ r : Reg, s.r8 r = 0x00#8) ∧
  (∀ (s t : State) (v : Word), step s = .next t →
    t.sp = s.sp ∧ step { s with sp := v } = .next { t with sp := v } ∧ ∀ r : Reg, t.r8 r = s.r8 r)

/-- Every step keeps the invariant, from every state that meets it: Memory stays in canonical form, and a set latch
is the fault that fetch and decode at the unmoved PC report (R137; log entries 3 and 4). The parameters and SP do
not move either. -/
def Obligations.StepKeepsInvariant : Prop :=
  ∀ s t : State, s.Inv → step s = .next t → t.Inv ∧ t.cfg = s.cfg ∧ t.sp = s.sp

/-- The invariant holds at reset. The canonical form is the model's choice (log entry 3), and State.reset is the
model's choice of the reset with the empty ROM buffer (log entry 6). -/
def Obligations.ResetMeetsInvariant : Prop := State.reset.Inv

/-- The invariant holds after construction from any ROM buffer, and so along every run. Memory's canonical form and
the latch's handling (decision D3) are the model's choices: log entries 3 and 4. -/
def Obligations.EveryRunMeetsInvariant : Prop :=
  ∀ (cfg : Config) (rom : List Byte) (k : Nat) (s : State), StepsTo k (State.construct cfg rom) s → s.Inv

/-- The model's loader stand-in (log entry 14) does what the host's checks rely on: with the latch clear and room for
three bytes inside the ROM window, the next step runs exactly the instruction placed at PC, and placing it changes
Memory alone and keeps its canonical form. -/
def Obligations.PlacedInstructionIsRunNext : Prop :=
  ∀ (s : State) (nbits w : Nat) (i : Instr), s.fault = none → s.mem.wf = true →
    s.pc.toNat + 2 < s.cfg.romWindowTop.addr.toNat → decodeTableWord nbits w = some i →
    step (s.withFetchWord nbits w) = exec i (s.withFetchWord nbits w) ∧
    s.withFetchWord nbits w = { s with mem := (s.withFetchWord nbits w).mem } ∧
    (s.withFetchWord nbits w).mem.wf = true
end

