-- ==== Sys2Proof/Laws/Decode.lean ====
section
/-! SUPPORT. Spec lemmas of the decoder: what it answers for each opcode byte (40_cycle.md R104). -/

namespace Sys2Proof

theorem selectOpcode_nop : selectOpcode 0x00#8 = some .nop := by decide

theorem selectOpcode_jp : selectOpcode 0xC3#8 = some .jp := by decide

theorem selectOpcode_other (op : Byte) (h0 : op ≠ 0x00#8) (h1 : op ≠ 0xC3#8) : selectOpcode op = none := by
  have hm : op &&& 255#8 = op := BitVec.and_allOnes (x := op)
  have e0 : (op &&& 255#8 == 0#8) = false := by rw [hm]; exact beq_false_of_ne h0
  have e1 : (op &&& 255#8 == 195#8) = false := by rw [hm]; exact beq_false_of_ne h1
  simp [selectOpcode, opcodeMap, OpcodeRow.selects, List.find?, e0, e1]

theorem decodeOpcode_nop {ε : Type} (operand : Nat → Except ε Byte) (u : ε) :
    decodeOpcode operand u 0x00#8 = .ok .nop := by
  simp [decodeOpcode, selectOpcode_nop]

theorem decodeOpcode_jp {ε : Type} (operand : Nat → Except ε Byte) (u : ε) :
    decodeOpcode operand u 0xC3#8 =
      match operand 1, operand 2 with
      | .error e, _ => .error e
      | .ok _, .error e => .error e
      | .ok lo, .ok hi => .ok (.jp lo hi) := by
  simp only [decodeOpcode, selectOpcode_jp]
  cases operand 1 <;> cases operand 2 <;> rfl

theorem decodeOpcode_other {ε : Type} (operand : Nat → Except ε Byte) (u : ε) (op : Byte)
    (h0 : op ≠ 0x00#8) (h1 : op ≠ 0xC3#8) : decodeOpcode operand u op = .error u := by
  simp [decodeOpcode, selectOpcode_other op h0 h1]

/-- Everything `decodeOpcode` can answer with an instruction for. -/
theorem decodeOpcode_ok_cases {ε : Type} {operand : Nat → Except ε Byte} {u : ε} {op : Byte} {i : Instr}
    (h : decodeOpcode operand u op = .ok i) :
    (op = 0x00#8 ∧ i = .nop) ∨
    (op = 0xC3#8 ∧ ∃ lo hi, operand 1 = .ok lo ∧ operand 2 = .ok hi ∧ i = .jp lo hi) := by
  by_cases h0 : op = 0x00#8
  · subst h0
    rw [decodeOpcode_nop] at h
    exact .inl ⟨rfl, (Except.ok.inj h).symm⟩
  · by_cases h1 : op = 0xC3#8
    · subst h1
      rw [decodeOpcode_jp] at h
      split at h
      · cases h
      · cases h
      · next lo hi e1 e2 => exact .inr ⟨rfl, lo, hi, e1, e2, (Except.ok.inj h).symm⟩
    · rw [decodeOpcode_other operand u op h0 h1] at h
      cases h

/-- Everything `decodeOpcode` can fail with. -/
theorem decodeOpcode_error_cases {ε : Type} {operand : Nat → Except ε Byte} {u e : ε} {op : Byte}
    (h : decodeOpcode operand u op = .error e) :
    (op ≠ 0x00#8 ∧ op ≠ 0xC3#8 ∧ e = u) ∨
    (op = 0xC3#8 ∧ operand 1 = .error e) ∨
    (op = 0xC3#8 ∧ (∃ lo, operand 1 = .ok lo) ∧ operand 2 = .error e) := by
  by_cases h0 : op = 0x00#8
  · subst h0
    rw [decodeOpcode_nop] at h
    cases h
  · by_cases h1 : op = 0xC3#8
    · subst h1
      rw [decodeOpcode_jp] at h
      split at h
      · next e' e1 => cases h; exact .inr (.inl ⟨rfl, e1⟩)
      · next lo e' e1 e2 => cases h; exact .inr (.inr ⟨rfl, ⟨lo, e1⟩, e2⟩)
      · cases h
    · rw [decodeOpcode_other operand u op h0 h1] at h
      cases h
      exact .inl ⟨h0, h1, rfl⟩

end Sys2Proof
end

