-- ==== Sys2Proof/Laws/Memory.lean ====
section
/-! SUPPORT. Lemmas about region contents: read after write, the canonical form and that every operation keeps it,
and what the ROM load puts where (20_memory.md R51, R52, R55). -/

namespace Sys2Proof.Machine

open Host (Cell)

@[simp] theorem cellsRead_nil (off : Nat) : cellsRead [] off = unlistedByte := rfl

theorem cellsWf_cons {lo hi at' : Nat} {b : Byte} {cs : List Cell} :
    cellsWf lo hi ((at', b) :: cs) = true ↔
      lo ≤ at' ∧ at' < hi ∧ b ≠ unlistedByte ∧ cellsWf (at' + 1) hi cs = true := by
  simp [cellsWf, and_assoc]

theorem cellsWf_mono {lo lo' hi : Nat} {cs : List Cell} (hl : lo' ≤ lo) (h : cellsWf lo hi cs = true) :
    cellsWf lo' hi cs = true := by
  cases cs with
  | nil => rfl
  | cons x cs =>
    obtain ⟨at', b⟩ := x
    rw [cellsWf_cons] at h ⊢
    exact ⟨by omega, h.2⟩

/-- Below the first offset a canonical list may hold, nothing is listed. -/
theorem cellsRead_below {lo hi off : Nat} {cs : List Cell} (h : cellsWf lo hi cs = true) (hoff : off < lo) :
    cellsRead cs off = unlistedByte := by
  induction cs generalizing lo with
  | nil => rfl
  | cons x cs ih =>
    obtain ⟨at', b⟩ := x
    rw [cellsWf_cons] at h
    have hne : at' ≠ off := by omega
    simp only [cellsRead, if_neg hne]
    exact ih h.2.2.2 (by omega)

theorem cellsRead_write_same {lo hi : Nat} {cs : List Cell} (off : Nat) (b : Byte) (h : cellsWf lo hi cs = true) :
    cellsRead (cellsWrite cs off b) off = b := by
  induction cs generalizing lo with
  | nil =>
    by_cases hb : b = unlistedByte <;> simp [cellsWrite, cellsRead, hb]
  | cons x cs ih =>
    obtain ⟨at', y⟩ := x
    have hw := cellsWf_cons.mp h
    simp only [cellsWrite]
    split
    · next hlt =>
      split
      · next hb => rw [cellsRead_below (cellsWf_cons.mpr ⟨Nat.le_refl at', hw.2⟩) hlt, hb]
      · simp [cellsRead]
    · split
      · next hge heq =>
        split
        · next hb => rw [cellsRead_below hw.2.2.2 (by omega), hb]
        · simp [cellsRead]
      · next hge hne =>
        simp only [cellsRead, if_neg (Ne.symm hne)]
        exact ih hw.2.2.2

theorem cellsRead_write_other {cs : List Cell} {off off' : Nat} (b : Byte) (hne : off' ≠ off) :
    cellsRead (cellsWrite cs off b) off' = cellsRead cs off' := by
  induction cs with
  | nil => by_cases hb : b = unlistedByte <;> simp [cellsWrite, cellsRead, hb, Ne.symm hne]
  | cons x cs ih =>
    obtain ⟨at', y⟩ := x
    simp only [cellsWrite]
    split
    · split
      · rfl
      · simp [cellsRead, Ne.symm hne]
    · split
      · next heq => subst heq; split <;> simp [cellsRead, Ne.symm hne]
      · simp [cellsRead, ih]

theorem cellsWf_write {lo hi : Nat} {cs : List Cell} {off : Nat} (b : Byte) (h : cellsWf lo hi cs = true)
    (hlo : lo ≤ off) (hhi : off < hi) : cellsWf lo hi (cellsWrite cs off b) = true := by
  induction cs generalizing lo with
  | nil => by_cases hb : b = unlistedByte <;> simp [cellsWrite, cellsWf, hb, hlo, hhi]
  | cons x cs ih =>
    obtain ⟨at', y⟩ := x
    have hw := cellsWf_cons.mp h
    simp only [cellsWrite]
    split
    · next hlt =>
      split
      · exact h
      · next hb => exact cellsWf_cons.mpr ⟨hlo, hhi, hb, cellsWf_cons.mpr ⟨hlt, hw.2⟩⟩
    · split
      · next hge heq =>
        split
        · exact cellsWf_mono (by omega) hw.2.2.2
        · next hb => subst heq; exact cellsWf_cons.mpr ⟨hlo, hhi, hb, hw.2.2.2⟩
      · next hge hne => exact cellsWf_cons.mpr ⟨hw.1, hw.2.1, hw.2.2.1, ih hw.2.2.2 (by omega)⟩

/-- Two canonical lists that read alike are equal. -/
theorem cells_ext {lo hi : Nat} {cs ds : List Cell} (hc : cellsWf lo hi cs = true) (hd : cellsWf lo hi ds = true)
    (h : ∀ off, cellsRead cs off = cellsRead ds off) : cs = ds := by
  induction cs generalizing lo ds with
  | nil =>
    cases ds with
    | nil => rfl
    | cons y ds =>
      obtain ⟨p, y⟩ := y
      have := h p
      simp [cellsRead] at this
      exact absurd this.symm (cellsWf_cons.mp hd).2.2.1
  | cons x cs ih =>
    obtain ⟨q, x⟩ := x
    have hcw := cellsWf_cons.mp hc
    cases ds with
    | nil =>
      have := h q
      simp [cellsRead] at this
      exact absurd this hcw.2.2.1
    | cons y ds =>
      obtain ⟨p, y⟩ := y
      have hdw := cellsWf_cons.mp hd
      have hpq : q = p := by
        rcases Nat.lt_trichotomy q p with hlt | heq | hgt
        · have := h q
          rw [cellsRead_below (cellsWf_cons.mpr ⟨Nat.le_refl p, hdw.2⟩) hlt] at this
          simp [cellsRead] at this
          exact absurd this hcw.2.2.1
        · exact heq
        · have := h p
          rw [cellsRead_below (cellsWf_cons.mpr ⟨Nat.le_refl q, hcw.2⟩) hgt] at this
          simp [cellsRead] at this
          exact absurd this.symm hdw.2.2.1
      subst hpq
      have hxy : x = y := by have := h q; simpa [cellsRead] using this
      subst hxy
      have : cs = ds := ih hcw.2.2.2 hdw.2.2.2 (fun off => by
        by_cases ho : q = off
        · subst ho
          rw [cellsRead_below hcw.2.2.2 (Nat.lt_succ_self q), cellsRead_below hdw.2.2.2 (Nat.lt_succ_self q)]
        · have := h off
          simpa [cellsRead, ho] using this)
      rw [this]

theorem cellsWf_cellsOfBytes (off hi : Nat) (bs : List Byte) (h : off + bs.length ≤ hi) :
    cellsWf off hi (cellsOfBytes off bs) = true := by
  induction bs generalizing off with
  | nil => rfl
  | cons b bs ih =>
    simp only [List.length_cons] at h
    have hrest := ih (off + 1) (by omega)
    simp only [cellsOfBytes]
    split
    · exact cellsWf_mono (Nat.le_succ off) hrest
    · next hb => exact cellsWf_cons.mpr ⟨Nat.le_refl off, by omega, hb, hrest⟩

theorem cellsRead_cellsOfBytes (off : Nat) (bs : List Byte) (n : Nat) :
    cellsRead (cellsOfBytes off bs) (off + n) = bs.getD n unlistedByte := by
  induction bs generalizing off n with
  | nil => simp [cellsOfBytes]
  | cons b bs ih =>
    simp only [cellsOfBytes]
    cases n with
    | zero =>
      split
      · next hb =>
        rw [cellsRead_below (cellsWf_cellsOfBytes (off + 1) (off + 1 + bs.length) bs (Nat.le_refl _)) (by omega)]
        simp [hb]
      · simp [cellsRead]
    | succ n =>
      have hrec := ih (off + 1) n
      rw [show off + 1 + n = off + (n + 1) by omega] at hrec
      split
      · simpa using hrec
      · simpa [cellsRead] using hrec

/-! ### Regions -/

@[simp] theorem Memory.cells_setCells_same (m : Memory) (r : Region) (cs) : (m.setCells r cs).cells r = cs := by
  cases r <;> rfl

theorem Memory.cells_setCells_other (m : Memory) {r r' : Region} (cs) (h : r' ≠ r) :
    (m.setCells r cs).cells r' = m.cells r' := by
  cases r <;> cases r' <;> first | rfl | exact absurd rfl h

theorem Memory.wf_iff (m : Memory) : m.wf = true ↔ ∀ r : Region, cellsWf 0 r.size (m.cells r) = true := by
  constructor
  · intro h
    simp only [Memory.wf, Bool.and_eq_true] at h
    obtain ⟨⟨⟨⟨⟨⟨h0, h1⟩, h2⟩, h3⟩, h4⟩, h5⟩, h6⟩ := h
    intro r
    cases r <;> assumption
  · intro h
    simp only [Memory.wf, Bool.and_eq_true]
    exact ⟨⟨⟨⟨⟨⟨h .rom0, h .romx⟩, h .vram⟩, h .xram⟩, h .wram⟩, h .echo⟩, h .oam⟩

theorem Memory.regionRead_of_lt (m : Memory) {r : Region} {off : Nat} (h : off < r.size) :
    m.regionRead r off = some (cellsRead (m.cells r) off) := by simp [Memory.regionRead, h]

theorem Memory.regionRead_of_ge (m : Memory) {r : Region} {off : Nat} (h : r.size ≤ off) :
    m.regionRead r off = none := by simp [Memory.regionRead, Nat.not_lt.mpr h]

/-- The one write of Memory keeps the canonical form. -/
theorem Memory.wf_regionPlace {m : Memory} (r : Region) (off : Nat) (b : Byte) (h : m.wf = true) :
    (m.regionPlace r off b).wf = true := by
  unfold Memory.regionPlace
  split
  · next hlt =>
    rw [Memory.wf_iff] at h ⊢
    intro r'
    by_cases hr : r' = r
    · subst hr
      rw [Memory.cells_setCells_same]
      exact cellsWf_write b (h r') (Nat.zero_le off) hlt
    · rw [Memory.cells_setCells_other m _ hr]
      exact h r'
  · exact h

theorem Memory.regionRead_regionPlace_same {m : Memory} {r : Region} {off : Nat} (b : Byte) (h : m.wf = true)
    (hlt : off < r.size) : (m.regionPlace r off b).regionRead r off = some b := by
  simp [Memory.regionPlace, Memory.regionRead, hlt, cellsRead_write_same off b ((Memory.wf_iff m).mp h r)]

theorem Memory.regionRead_regionPlace_other {m : Memory} {r r' : Region} {off off' : Nat} (b : Byte)
    (hne : (r', off') ≠ (r, off)) : (m.regionPlace r off b).regionRead r' off' = m.regionRead r' off' := by
  unfold Memory.regionPlace
  split
  · next hlt =>
    unfold Memory.regionRead
    by_cases hr : r' = r
    · subst hr
      have ho : off' ≠ off := fun e => hne (by rw [e])
      rw [Memory.cells_setCells_same, cellsRead_write_other b ho]
    · rw [Memory.cells_setCells_other m _ hr]
  · rfl

/-! ### The ROM load -/

theorem romImage_length_le (fill : Byte) (rom : List Byte) : (romImage fill rom).length ≤ romImageMax := by
  simp only [romImage]
  split
  · exact List.length_take_le _ _
  · simp only [List.length_append, List.length_take, List.length_replicate]
    omega

theorem romImage_getD (fill : Byte) (rom : List Byte) {i : Nat} (h : i < romImageMax) :
    (romImage fill rom).getD i unlistedByte = rom.getD i fill := by
  simp only [romImage]
  split
  · next hf => simp [List.getD_eq_getElem?_getD, h, hf]
  · simp only [List.getD_eq_getElem?_getD, List.getElem?_append, List.length_take, List.getElem?_take, h, if_true,
      List.getElem?_replicate]
    by_cases hi : i < rom.length
    · have : i < min romImageMax rom.length := by omega
      simp [this, hi]
    · have h1 : ¬ i < min romImageMax rom.length := by omega
      have h2 : i - min romImageMax rom.length < romImageMax - min romImageMax rom.length := by omega
      have h3 : rom[i]? = none := List.getElem?_eq_none (Nat.not_lt.mp hi)
      simp [h1, h2, h3]

/-- The construction of Memory has the canonical form, whatever the ROM buffer. -/
theorem Memory.wf_load (fill : Byte) (rom : List Byte) : (Memory.load fill rom).wf = true := by
  have hlen := romImage_length_le fill rom
  rw [Memory.wf_iff]
  intro r
  cases r with
  | rom0 =>
    apply cellsWf_cellsOfBytes
    simp only [Region.size, List.length_take]
    omega
  | romx =>
    apply cellsWf_cellsOfBytes
    simp only [Region.size, List.length_drop, romBankSize]
    simp only [romImageMax] at hlen
    omega
  | vram => rfl
  | xram => rfl
  | wram => rfl
  | echo => rfl
  | oam => rfl

end Sys2Proof.Machine
end

