-- ==== Sys2Proof/Laws/Operands.lean ====
section
/-! SUPPORT. Lemmas about byte slices and composition (00_scope.md R7, R8, R9). -/

namespace Sys2Proof.Machine

theorem highByte_concatBytes (hi lo : Byte) : highByte (concatBytes hi lo) = hi := by
  apply BitVec.eq_of_getLsbD_eq
  intro i hi8
  have h16 : 8 + i < 16 := by omega
  simp [highByte, concatBytes, zext16, hi8, h16]

theorem lowByte_concatBytes (hi lo : Byte) : lowByte (concatBytes hi lo) = lo := by
  apply BitVec.eq_of_getLsbD_eq
  intro i hi8
  simp [lowByte, concatBytes, zext16, hi8, show i < 16 by omega]

theorem concatBytes_highByte_lowByte (v : Word) : concatBytes (highByte v) (lowByte v) = v := by
  apply BitVec.eq_of_getLsbD_eq
  intro i hi16
  by_cases h8 : i < 8
  · simp [highByte, lowByte, concatBytes, zext16, h8, hi16]
  · have h : i - 8 < 8 := by omega
    have h' : 8 + (i - 8) = i := by omega
    simp [highByte, lowByte, concatBytes, zext16, h8, hi16, h, h']

theorem concatBytes_toNat (hi lo : Byte) : (concatBytes hi lo).toNat = 256 * hi.toNat + lo.toNat := by
  have hl : lo.toNat < 2 ^ 8 := lo.isLt
  have hh := hi.isLt
  simp only [concatBytes, zext16, BitVec.toNat_or, BitVec.toNat_shiftLeft, BitVec.toNat_setWidth]
  rw [Nat.mod_eq_of_lt (show lo.toNat < 2 ^ 16 by omega), Nat.mod_eq_of_lt (show hi.toNat < 2 ^ 16 by omega),
    Nat.mod_eq_of_lt (by rw [Nat.shiftLeft_eq]; omega), ← Nat.shiftLeft_add_eq_or_of_lt hl, Nat.shiftLeft_eq]
  omega

theorem add16_toNat_of_lt (a : Word) (n : Nat) (h : a.toNat + n < 0x10000) : (add16 a n).toNat = a.toNat + n := by
  simp only [add16, BitVec.toNat_add, BitVec.toNat_ofNat]
  omega

end Sys2Proof.Machine
end

