-- ==== Sys2Proof/Laws/State.lean ====
section
/-! SUPPORT. One lemma per field per update of the state, true by unfolding and tagged simp, so that no later proof
unfolds a record update. -/

namespace Sys2Proof.Machine

variable (s : State) (r r' : Reg) (p : Pair) (v : Byte) (w : Word) (ev : TraceEvent) (fl : CoreFault)

/-! ### `setR8` -/

@[simp] theorem State.setR8_r8_same : (s.setR8 r v).r8 r = v := by cases r <;> rfl
theorem State.setR8_r8_other (h : r' ≠ r) : (s.setR8 r v).r8 r' = s.r8 r' := by
  cases r <;> cases r' <;> first | rfl | exact absurd rfl h
@[simp] theorem State.setR8_pc : (s.setR8 r v).pc = s.pc := by cases r <;> rfl
@[simp] theorem State.setR8_sp : (s.setR8 r v).sp = s.sp := by cases r <;> rfl
@[simp] theorem State.setR8_fault : (s.setR8 r v).fault = s.fault := by cases r <;> rfl
@[simp] theorem State.setR8_mem : (s.setR8 r v).mem = s.mem := by cases r <;> rfl
@[simp] theorem State.setR8_trace : (s.setR8 r v).trace = s.trace := by cases r <;> rfl
@[simp] theorem State.setR8_cfg : (s.setR8 r v).cfg = s.cfg := by cases r <;> rfl

/-! ### `setRp` -/

@[simp] theorem State.setRp_pc : (s.setRp p w).pc = s.pc := by cases p <;> rfl
@[simp] theorem State.setRp_sp : (s.setRp p w).sp = s.sp := by cases p <;> rfl
@[simp] theorem State.setRp_fault : (s.setRp p w).fault = s.fault := by cases p <;> rfl
@[simp] theorem State.setRp_mem : (s.setRp p w).mem = s.mem := by cases p <;> rfl
@[simp] theorem State.setRp_trace : (s.setRp p w).trace = s.trace := by cases p <;> rfl
@[simp] theorem State.setRp_cfg : (s.setRp p w).cfg = s.cfg := by cases p <;> rfl

/-! ### `setPc` -/

@[simp] theorem State.setPc_pc : (s.setPc w).pc = w := rfl
@[simp] theorem State.setPc_r8 : (s.setPc w).r8 r = s.r8 r := rfl
@[simp] theorem State.setPc_sp : (s.setPc w).sp = s.sp := rfl
@[simp] theorem State.setPc_fault : (s.setPc w).fault = s.fault := rfl
@[simp] theorem State.setPc_mem : (s.setPc w).mem = s.mem := rfl
@[simp] theorem State.setPc_trace : (s.setPc w).trace = s.trace := rfl
@[simp] theorem State.setPc_cfg : (s.setPc w).cfg = s.cfg := rfl

/-! ### `emit`: only the trace changes -/

theorem State.emit_eq :
    s.emit ev = { s with trace := if s.cfg.traceEnable then ev :: s.trace else s.trace } := by
  unfold State.emit; split <;> rfl
@[simp] theorem State.emit_r8 : (s.emit ev).r8 r = s.r8 r := by rw [State.emit_eq]; rfl
@[simp] theorem State.emit_pc : (s.emit ev).pc = s.pc := by rw [State.emit_eq]
@[simp] theorem State.emit_sp : (s.emit ev).sp = s.sp := by rw [State.emit_eq]
@[simp] theorem State.emit_fault : (s.emit ev).fault = s.fault := by rw [State.emit_eq]
@[simp] theorem State.emit_mem : (s.emit ev).mem = s.mem := by rw [State.emit_eq]
@[simp] theorem State.emit_cfg : (s.emit ev).cfg = s.cfg := by rw [State.emit_eq]
@[simp] theorem State.emit_trace :
    (s.emit ev).trace = if s.cfg.traceEnable then ev :: s.trace else s.trace := by rw [State.emit_eq]

/-! ### `raise`: only the latch changes -/

@[simp] theorem State.raise_fault : (s.raise fl).fault = some fl := rfl
@[simp] theorem State.raise_r8 : (s.raise fl).r8 r = s.r8 r := rfl
@[simp] theorem State.raise_pc : (s.raise fl).pc = s.pc := rfl
@[simp] theorem State.raise_sp : (s.raise fl).sp = s.sp := rfl
@[simp] theorem State.raise_mem : (s.raise fl).mem = s.mem := rfl
@[simp] theorem State.raise_trace : (s.raise fl).trace = s.trace := rfl
@[simp] theorem State.raise_cfg : (s.raise fl).cfg = s.cfg := rfl

/-! ### `placeByte`: only Memory changes -/

theorem State.placeByte_eq (addr : Word) (byte : Byte) :
    s.placeByte addr byte = { s with mem := (s.placeByte addr byte).mem } := by
  unfold State.placeByte; split <;> rfl
@[simp] theorem State.placeByte_pc (addr : Word) (byte : Byte) : (s.placeByte addr byte).pc = s.pc := by
  rw [State.placeByte_eq]
@[simp] theorem State.placeByte_fault (addr : Word) (byte : Byte) : (s.placeByte addr byte).fault = s.fault := by
  rw [State.placeByte_eq]
@[simp] theorem State.placeByte_cfg (addr : Word) (byte : Byte) : (s.placeByte addr byte).cfg = s.cfg := by
  rw [State.placeByte_eq]

/-! ### `construct`: the reset values of 10_state.md R40 -/

variable (cfg : Config) (rom : List Byte)

@[simp] theorem State.construct_r8 : (State.construct cfg rom).r8 r = 0x00#8 := by cases r <;> rfl
@[simp] theorem State.construct_pc : (State.construct cfg rom).pc = 0x0100#16 := rfl
@[simp] theorem State.construct_sp : (State.construct cfg rom).sp = 0xFFFE#16 := rfl
@[simp] theorem State.construct_fault : (State.construct cfg rom).fault = none := rfl
@[simp] theorem State.construct_mem : (State.construct cfg rom).mem = Memory.load cfg.romFill rom := rfl
@[simp] theorem State.construct_trace : (State.construct cfg rom).trace = [] := rfl
@[simp] theorem State.construct_cfg : (State.construct cfg rom).cfg = cfg := rfl

end Sys2Proof.Machine
end

