-- ==== Sys2Proof/Laws/Ops.lean ====
section
/-! SUPPORT. Spec lemmas of the shared operations: what the read interface answers (20_memory.md R56), on what it
depends, and what fetch and decode at PC can answer (40_cycle.md R103, R104). -/

namespace Sys2Proof.Machine

theorem windowTop_toNat (cfg : Config) :
    cfg.romWindowTop.addr.toNat = 0x8000 ∨ cfg.romWindowTop.addr.toNat = 0x4000 := by
  cases cfg.romWindowTop
  · exact .inl rfl
  · exact .inr rfl

theorem State.locate_rom0 {s : State} {addr : Word} (h : addr.toNat < 0x4000) :
    s.locate addr = some (.rom0, addr.toNat) := by
  have : addr < 0x4000#16 := by rw [BitVec.lt_def]; exact h
  simp [State.locate, this]

theorem State.locate_romx {s : State} {addr : Word} (h0 : 0x4000 ≤ addr.toNat)
    (h1 : addr.toNat < s.cfg.romWindowTop.addr.toNat) : s.locate addr = some (.romx, addr.toNat - 0x4000) := by
  have a0 : ¬ addr < 0x4000#16 := by rw [BitVec.lt_def]; exact Nat.not_lt.mpr h0
  have a1 : addr < s.cfg.romWindowTop.addr := by rw [BitVec.lt_def]; exact h1
  simp [State.locate, a0, a1]

theorem State.locate_outside {s : State} {addr : Word} (h : s.cfg.romWindowTop.addr.toNat ≤ addr.toNat) :
    s.locate addr = none := by
  have ht := windowTop_toNat s.cfg
  have a0 : ¬ addr < 0x4000#16 := by
    rw [BitVec.lt_def]
    show ¬ addr.toNat < 0x4000
    omega
  have a1 : ¬ addr < s.cfg.romWindowTop.addr := by rw [BitVec.lt_def]; exact Nat.not_lt.mpr h
  simp [State.locate, a0, a1]

/-- Every location the read interface computes is inside its region. -/
theorem State.locate_in_range {s : State} {addr : Word} {r : Region} {off : Nat}
    (h : s.locate addr = some (r, off)) : off < r.size := by
  have ht := windowTop_toNat s.cfg
  by_cases h0 : addr.toNat < 0x4000
  · rw [State.locate_rom0 h0] at h
    cases h
    exact h0
  · by_cases h1 : addr.toNat < s.cfg.romWindowTop.addr.toNat
    · rw [State.locate_romx (Nat.not_lt.mp h0) h1] at h
      cases h
      show addr.toNat - 0x4000 < 0x4000
      omega
    · rw [State.locate_outside (Nat.not_lt.mp h1)] at h
      cases h

theorem State.memRead_of_locate {s : State} {addr : Word} {r : Region} {off : Nat}
    (h : s.locate addr = some (r, off)) : s.memRead addr = .ok (cellsRead (s.mem.cells r) off) := by
  simp only [State.memRead, h, Memory.regionRead_of_lt _ (State.locate_in_range h)]

theorem State.memRead_rom0 {s : State} {addr : Word} (h : addr.toNat < 0x4000) :
    s.memRead addr = .ok (cellsRead s.mem.rom0 addr.toNat) :=
  State.memRead_of_locate (State.locate_rom0 h)

theorem State.memRead_romx {s : State} {addr : Word} (h0 : 0x4000 ≤ addr.toNat)
    (h1 : addr.toNat < s.cfg.romWindowTop.addr.toNat) :
    s.memRead addr = .ok (cellsRead s.mem.romx (addr.toNat - 0x4000)) :=
  State.memRead_of_locate (State.locate_romx h0 h1)

theorem State.memRead_outside {s : State} {addr : Word} (h : s.cfg.romWindowTop.addr.toNat ≤ addr.toNat) :
    s.memRead addr = .error (.outOfRangeAccess addr) := by
  simp [State.memRead, State.locate_outside h]

/-- A read succeeds exactly inside the ROM window. -/
theorem State.memRead_isOk_iff {s : State} {addr : Word} :
    (∃ byte, s.memRead addr = .ok byte) ↔ addr.toNat < s.cfg.romWindowTop.addr.toNat := by
  constructor
  · rintro ⟨byte, h⟩
    by_contra hn
    rw [State.memRead_outside (Nat.not_lt.mp hn)] at h
    cases h
  · intro h
    by_cases h0 : addr.toNat < 0x4000
    · exact ⟨_, State.memRead_rom0 h0⟩
    · exact ⟨_, State.memRead_romx (Nat.not_lt.mp h0) h⟩

/-- A read fails only outside the ROM window, with the address of the read. -/
theorem State.memRead_error_iff {s : State} {addr : Word} {f : CoreFault} :
    s.memRead addr = .error f ↔ s.cfg.romWindowTop.addr.toNat ≤ addr.toNat ∧ f = .outOfRangeAccess addr := by
  constructor
  · intro h
    have hn : ¬ addr.toNat < s.cfg.romWindowTop.addr.toNat := by
      rw [← State.memRead_isOk_iff]
      rintro ⟨byte, hb⟩
      rw [h] at hb
      cases hb
    rw [State.memRead_outside (Nat.not_lt.mp hn)] at h
    exact ⟨Nat.not_lt.mp hn, (Except.error.inj h).symm⟩
  · rintro ⟨h, rfl⟩
    exact State.memRead_outside h

/-- A read depends on the two ROM banks and the window top alone. -/
theorem State.memRead_congr {s t : State} (addr : Word) (h0 : s.mem.rom0 = t.mem.rom0)
    (hx : s.mem.romx = t.mem.romx) (ht : s.cfg.romWindowTop = t.cfg.romWindowTop) :
    s.memRead addr = t.memRead addr := by
  by_cases a0 : addr.toNat < 0x4000
  · rw [State.memRead_rom0 a0, State.memRead_rom0 a0, h0]
  · by_cases a1 : addr.toNat < s.cfg.romWindowTop.addr.toNat
    · rw [State.memRead_romx (Nat.not_lt.mp a0) a1, State.memRead_romx (Nat.not_lt.mp a0) (ht ▸ a1), hx]
    · rw [State.memRead_outside (Nat.not_lt.mp a1), State.memRead_outside (ht ▸ Nat.not_lt.mp a1)]

/-- What fetch and decode answer depends on PC, the two ROM banks and the window top alone. -/
theorem State.fetchDecode_congr {s t : State} (hpc : s.pc = t.pc) (h0 : s.mem.rom0 = t.mem.rom0)
    (hx : s.mem.romx = t.mem.romx) (ht : s.cfg.romWindowTop = t.cfg.romWindowTop) :
    s.fetchDecode = t.fetchDecode := by
  have hr : ∀ addr, s.memRead addr = t.memRead addr := fun addr => State.memRead_congr addr h0 hx ht
  simp only [State.fetchDecode, State.fetch, State.decodeFetched, hpc, hr]

/-- Everything fetch and decode can answer with an instruction for. -/
theorem State.fetchDecode_ok_cases {s : State} {i : Instr} (h : s.fetchDecode = .ok i) :
    (s.memRead s.pc = .ok 0x00#8 ∧ i = .nop) ∨
    (∃ lo hi, s.memRead s.pc = .ok 0xC3#8 ∧ s.memRead (add16 s.pc 1) = .ok lo ∧
      s.memRead (add16 s.pc 2) = .ok hi ∧ i = .jp lo hi) := by
  unfold State.fetchDecode State.fetch at h
  split at h
  · cases h
  · next op hop =>
    rcases decodeOpcode_ok_cases h with ⟨rfl, rfl⟩ | ⟨rfl, lo, hi, h1, h2, rfl⟩
    · exact .inl ⟨hop, rfl⟩
    · exact .inr ⟨lo, hi, hop, h1, h2, rfl⟩

/-- Everything fetch and decode can fail with (R136). -/
theorem State.fetchDecode_error_cases {s : State} {f : CoreFault} (h : s.fetchDecode = .error f) :
    (s.memRead s.pc = .error f) ∨
    (∃ op, s.memRead s.pc = .ok op ∧ op ≠ 0x00#8 ∧ op ≠ 0xC3#8 ∧ f = .unimplementedOpcode op s.pc) ∨
    (s.memRead s.pc = .ok 0xC3#8 ∧ s.memRead (add16 s.pc 1) = .error f) ∨
    (s.memRead s.pc = .ok 0xC3#8 ∧ (∃ lo, s.memRead (add16 s.pc 1) = .ok lo) ∧
      s.memRead (add16 s.pc 2) = .error f) := by
  unfold State.fetchDecode State.fetch at h
  split at h
  · next e he => cases h; exact .inl he
  · next op hop =>
    rcases decodeOpcode_error_cases h with ⟨h0, h1, rfl⟩ | ⟨rfl, h1⟩ | ⟨rfl, h1, h2⟩
    · exact .inr (.inl ⟨op, hop, h0, h1, rfl⟩)
    · exact .inr (.inr (.inl ⟨hop, h1⟩))
    · exact .inr (.inr (.inr ⟨hop, h1, h2⟩))

theorem State.fetchDecode_nop {s : State} (h : s.memRead s.pc = .ok 0x00#8) : s.fetchDecode = .ok .nop := by
  simp [State.fetchDecode, State.fetch, h, State.decodeFetched, decodeOpcode_nop]

theorem State.fetchDecode_jp {s : State} {lo hi : Byte} (h : s.memRead s.pc = .ok 0xC3#8)
    (h1 : s.memRead (add16 s.pc 1) = .ok lo) (h2 : s.memRead (add16 s.pc 2) = .ok hi) :
    s.fetchDecode = .ok (.jp lo hi) := by
  simp [State.fetchDecode, State.fetch, h, State.decodeFetched, decodeOpcode_jp, h1, h2]

theorem State.fetchDecode_unimplemented {s : State} {op : Byte} (h : s.memRead s.pc = .ok op) (h0 : op ≠ 0x00#8)
    (h1 : op ≠ 0xC3#8) : s.fetchDecode = .error (.unimplementedOpcode op s.pc) := by
  simp [State.fetchDecode, State.fetch, h, State.decodeFetched, decodeOpcode_other _ _ op h0 h1]

theorem State.fetchDecode_fetchFault {s : State} {f : CoreFault} (h : s.memRead s.pc = .error f) :
    s.fetchDecode = .error f := by
  simp [State.fetchDecode, State.fetch, h]

theorem State.fetchDecode_lowFault {s : State} {f : CoreFault} (h : s.memRead s.pc = .ok 0xC3#8)
    (h1 : s.memRead (add16 s.pc 1) = .error f) : s.fetchDecode = .error f := by
  simp [State.fetchDecode, State.fetch, h, State.decodeFetched, decodeOpcode_jp, h1]

theorem State.fetchDecode_highFault {s : State} {f : CoreFault} {lo : Byte} (h : s.memRead s.pc = .ok 0xC3#8)
    (h1 : s.memRead (add16 s.pc 1) = .ok lo) (h2 : s.memRead (add16 s.pc 2) = .error f) :
    s.fetchDecode = .error f := by
  simp [State.fetchDecode, State.fetch, h, State.decodeFetched, decodeOpcode_jp, h1, h2]

/-! ### Placing bytes (the loader's stand-in, log entry 14) -/

/-- Distinct addresses inside the window are distinct locations. -/
theorem State.locate_inj {s : State} {x y : Word} {p : Region × Nat} (hx : s.locate x = some p)
    (hy : s.locate y = some p) : x = y := by
  have key : ∀ {z : Word}, s.locate z = some p →
      z.toNat = (if p.1 = .rom0 then p.2 else p.2 + 0x4000) := by
    intro z hz
    by_cases h0 : z.toNat < 0x4000
    · rw [State.locate_rom0 h0] at hz
      cases hz
      rfl
    · by_cases h1 : z.toNat < s.cfg.romWindowTop.addr.toNat
      · rw [State.locate_romx (Nat.not_lt.mp h0) h1] at hz
        cases hz
        show z.toNat = z.toNat - 0x4000 + 0x4000
        omega
      · rw [State.locate_outside (Nat.not_lt.mp h1)] at hz
        cases hz
  exact BitVec.eq_of_toNat_eq ((key hx).trans (key hy).symm)

theorem State.locate_placeByte (s : State) (addr x : Word) (b : Byte) :
    (s.placeByte addr b).locate x = s.locate x := by
  simp [State.locate]

theorem State.memRead_placeByte_same {s : State} {addr : Word} (b : Byte) (hwf : s.mem.wf = true)
    (h : addr.toNat < s.cfg.romWindowTop.addr.toNat) : (s.placeByte addr b).memRead addr = .ok b := by
  unfold State.memRead
  rw [State.locate_placeByte]
  unfold State.placeByte
  split
  · next hn =>
    obtain ⟨byte, hb⟩ := State.memRead_isOk_iff.mpr h
    simp [State.memRead, hn] at hb
  · next r off hl =>
    simp [Memory.regionRead_regionPlace_same b hwf (State.locate_in_range hl)]

theorem State.memRead_placeByte_other {s : State} {addr x : Word} (b : Byte) (hne : x ≠ addr) :
    (s.placeByte addr b).memRead x = s.memRead x := by
  unfold State.memRead
  rw [State.locate_placeByte]
  cases hx : s.locate x with
  | none => rfl
  | some q =>
    have key : (s.placeByte addr b).mem.regionRead q.1 q.2 = s.mem.regionRead q.1 q.2 := by
      unfold State.placeByte
      cases hl : s.locate addr with
      | none => rfl
      | some p =>
        have hqp : (q.1, q.2) ≠ (p.1, p.2) := fun e => hne (State.locate_inj hx ((show q = p from e) ▸ hl))
        exact Memory.regionRead_regionPlace_other b hqp
    simp only [key]

theorem State.wf_placeByte {s : State} (addr : Word) (b : Byte) (h : s.mem.wf = true) :
    (s.placeByte addr b).mem.wf = true := by
  unfold State.placeByte
  split
  · exact h
  · exact Memory.wf_regionPlace _ _ _ h

end Sys2Proof.Machine
end

