-- ==== Sys2Proof/Laws/PerInstr.lean ====
section
/-! SUPPORT. The per-instruction family `EncodingForm`: every instruction is well formed, its encoding has the length
its format gives (30_encoding.md R80) and is exactly one instruction. -/

namespace Sys2Proof.Laws.EncodingForm

/-- The family's statement for one instruction. -/
def Statement (i : Instr) : Prop :=
  i.wf = true ∧ (encode i).length = i.length ∧ encodingWf (encode i) = true

theorem nop : Statement .nop := ⟨rfl, rfl, by decide⟩

theorem jp (lo hi : Byte) : Statement (.jp lo hi) := ⟨rfl, rfl, rfl⟩

end Sys2Proof.Laws.EncodingForm
end

