-- ==== Sys2Proof/Laws/Step.lean ====
section
/-! SUPPORT. What `exec` and `step` can do, said once; the invariants and frames are derived from these lemmas. -/

namespace Sys2Proof.Machine

/-- The value execute writes to PC (40_cycle.md R112). -/
def nextPc (i : Instr) (pc : Word) : Word :=
  match i with
  | .nop => add16 pc 1
  | .jp lo hi => jumpTarget lo hi

/-- The event execute emits (40_cycle.md R109). -/
def eventOf : Instr → TraceEvent
  | .nop => .traceNop
  | .jp lo hi => .traceJump (jumpTarget lo hi)

/-- Execute always completes: it writes PC, emits one event, and does nothing else (R105). -/
theorem exec_eq (i : Instr) (s : State) :
    exec i s = .next ((s.setPc (nextPc i s.pc)).emit (eventOf i)) := by
  cases i <;> rfl

theorem step_stopped {s : State} {f : CoreFault} (h : s.fault = some f) : step s = .fault (.stopped f) := by
  simp [step, h]

theorem step_ok {s : State} {i : Instr} (hr : s.fault = none) (h : s.fetchDecode = .ok i) : step s = exec i s := by
  simp [step, hr, h]

theorem step_error {s : State} {f : CoreFault} (hr : s.fault = none) (h : s.fetchDecode = .error f) :
    step s = .next (s.raise f) := by
  simp [step, hr, h]

/-- Everything a step can answer with a next state. -/
theorem step_next_cases {s t : State} (h : step s = .next t) :
    s.fault = none ∧
    ((∃ i, s.fetchDecode = .ok i ∧ t = (s.setPc (nextPc i s.pc)).emit (eventOf i)) ∨
     (∃ f, s.fetchDecode = .error f ∧ t = s.raise f)) := by
  cases hf : s.fault with
  | some f => rw [step_stopped hf] at h; cases h
  | none =>
    refine ⟨rfl, ?_⟩
    cases hd : s.fetchDecode with
    | error f =>
      rw [step_error hf hd] at h
      exact .inr ⟨f, rfl, (Host.Outcome.next.inj h).symm⟩
    | ok i =>
      rw [step_ok hf hd, exec_eq] at h
      exact .inl ⟨i, rfl, (Host.Outcome.next.inj h).symm⟩

/-- An invariant of every step holds after any number of steps: the induction, done once. -/
theorem StepsTo_induct {P : State → Prop} (hstep : ∀ s t, P s → step s = .next t → P t) :
    ∀ (k : Nat) (s t : State), P s → StepsTo k s t → P t
  | 0, _, _, hs, h => h ▸ hs
  | k + 1, s, t, hs, ⟨u, hu, hk⟩ => StepsTo_induct hstep k u t (hstep s u hs hu) hk

end Sys2Proof.Machine
end

