-- ==== Sys2Proof/Tests/Slice0.lean ====
section
/-! SUPPORT. The model's own tests: expected results come from 95_test_vectors.md (its vector ids are in the
docstrings). Then, for every statement with hypotheses, states and operands that meet them, clause by clause at
boundary values. -/

namespace Sys2Proof.Tests

open Sys2Proof Sys2Proof.Machine

/-- The reset state with given cells in the two ROM banks, a given PC and a given window top. -/
def rig (rom0 romx : List Host.Cell) (pc : Word) (top : RomWindowTop := .top8000) : State :=
  { State.reset with
    pc := pc
    mem := { State.reset.mem with rom0 := rom0, romx := romx }
    cfg := { Config.default with romWindowTop := top } }

/-! ### Well-formedness: an ill-formed sequence for each check, refused by name -/

theorem test_wf_no_opcode : checkEncoding [] = .error .noOpcode := rfl
theorem test_wf_unimplemented : checkEncoding [0xC2#8, 0x34#8, 0x12#8] = .error (.unimplementedOpcode 0xC2#8) := rfl
theorem test_wf_jp_too_short : checkEncoding [0xC3#8, 0x34#8] = .error (.wrongLength 3 2) := rfl
theorem test_wf_nop_too_long : checkEncoding [0x00#8, 0x00#8] = .error (.wrongLength 1 2) := rfl
theorem test_wf_accepts : encodingWf [0x00#8] = true ∧ encodingWf [0xC3#8, 0x34#8, 0x12#8] = true := by decide

/-! ### Decode: words written out bit by bit from the table of R80 and R83 -/

/-- R83: binary 00000000 is NOP. -/
theorem test_decode_nop : decode [0b00000000#8] = .ok (.nop, []) := rfl
/-- W4: binary 11000011, lo = 00110100, hi = 00010010. -/
theorem test_decode_jp : decode [0b11000011#8, 0b00110100#8, 0b00010010#8] = .ok (.jp 0x34#8 0x12#8, []) := rfl
/-- V-D9, V-D10, V-D12: no prefix, no halt, the whole byte is matched. -/
theorem test_decode_unimplemented :
    decode [0xCB#8, 0x00#8] = .error (.unimplementedOpcode 0xCB#8) ∧
    decode [0x76#8] = .error (.unimplementedOpcode 0x76#8) ∧
    decode [0x80#8] = .error (.unimplementedOpcode 0x80#8) := ⟨rfl, rfl, rfl⟩
/-- A JP cut short by the end of the bytes names the missing byte. -/
theorem test_decode_truncated :
    decode [] = .error (.endOfBytes 0) ∧ decode [0xC3#8] = .error (.endOfBytes 1) ∧
    decode [0xC3#8, 0x34#8] = .error (.endOfBytes 2) := ⟨rfl, rfl, rfl⟩
/-- R88: `JP 0x1234` assembles to C3 34 12. -/
theorem test_encode_jp : encode (.jpAbsolute 0x1234#16) = [0xC3#8, 0x34#8, 0x12#8] := by decide
theorem test_table_word : decodeTableWord 24 0x1234C3 = some (.jp 0x34#8 0x12#8) ∧
    decodeTableWord 8 0xC300 = some .nop ∧ decodeTableWord 8 0x43 = none := by decide

/-! ### Registers, pairs, flags -/

/-- V-P1, V-P3: first-named register high; F's low nibble is kept. -/
theorem test_pair_write :
    (State.reset.setRp .bc 0x1234#16).b = 0x12#8 ∧ (State.reset.setRp .bc 0x1234#16).c = 0x34#8 ∧
    (State.reset.setRp .af 0x12FF#16).f = 0xFF#8 ∧ (State.reset.setRp .af 0x12FF#16).rp .af = 0x12FF#16 := by decide
/-- V-P5: F = 0xCD, A <- 0xAB. -/
theorem test_pair_read : ((State.reset.setR8 .f 0xCD#8).setR8 .a 0xAB#8).rp .af = 0xABCD#16 := by decide
/-- R29 (3): zero is bit 7, carry bit 4. -/
theorem test_flag_bits : (State.reset.setFlag .zero true).f = 0x80#8 ∧
    ((State.reset.setR8 .f 0xFF#8).setFlag .carry false).f = 0xEF#8 := by decide

/-! ### Memory: load and the read interface -/

/-- V-M2: six bytes land at image index 0; the next position is filled. -/
theorem test_load_short :
    (Memory.load 0x00#8 [0xC3#8, 0x05#8, 0x01#8, 0x00#8, 0x00#8, 0x00#8]).regionRead .rom0 2 = some 0x01#8 ∧
    (Memory.load 0x00#8 [0xC3#8, 0x05#8, 0x01#8, 0x00#8, 0x00#8, 0x00#8]).regionRead .rom0 6 = some 0x00#8 := by
  decide
/-- V-M13, V-M14. -/
theorem test_region_bounds : State.reset.mem.regionRead .rom0 0x4000 = none ∧
    State.reset.mem.regionRead .vram 0x2000 = none ∧ State.reset.mem.regionRead .wram 0x1FFF = some 0x00#8 := by
  decide
/-- V-M8 to V-M12, with the bytes of V-M1 at those offsets. -/
theorem test_read_interface :
    (rig [(0x3FFF, 0x44#8)] [(0, 0x45#8), (0x3FFF, 0x89#8)] 0).memRead 0x3FFF#16 = .ok 0x44#8 ∧
    (rig [(0x3FFF, 0x44#8)] [(0, 0x45#8), (0x3FFF, 0x89#8)] 0).memRead 0x4000#16 = .ok 0x45#8 ∧
    (rig [(0x3FFF, 0x44#8)] [(0, 0x45#8), (0x3FFF, 0x89#8)] 0).memRead 0x7FFF#16 = .ok 0x89#8 ∧
    (rig [] [] 0).memRead 0x8000#16 = .error (.outOfRangeAccess 0x8000#16) ∧
    (rig [] [(0, 0x45#8)] 0 .top4000).memRead 0x4000#16 = .error (.outOfRangeAccess 0x4000#16) := by decide

/-! ### Reset -/

/-- W2, R40. -/
theorem test_reset : State.reset.pc = 0x0100#16 ∧ State.reset.sp = 0xFFFE#16 ∧ State.reset.a = 0x00#8 ∧
    State.reset.f = 0x00#8 ∧ State.reset.fault = none ∧ State.reset.mem.wf = true := by decide

/-! ### Steps -/

/-- V-N5: NOP at 0x7FFF leaves PC = 0x8000, no fault yet. -/
theorem test_nop_last_byte : step (rig [] [] 0x7FFF#16) =
    .next { rig [] [] 0x7FFF#16 with pc := 0x8000#16, trace := [.traceNop] } := rfl
/-- V-N3: NOP at the last byte of the fixed bank. -/
theorem test_nop_bank_edge : step (rig [] [] 0x3FFF#16) =
    .next { rig [] [] 0x3FFF#16 with pc := 0x4000#16, trace := [.traceNop] } := rfl
/-- V-J1: C3 34 12 at the reset PC, placed as the host places it. -/
theorem test_jp_from_reset : step (State.reset.withFetchWord 24 0x1234C3) =
    .next { State.reset.withFetchWord 24 0x1234C3 with
      pc := 0x1234#16, trace := [.traceJump 0x1234#16] } := rfl
/-- V-J8: the opcode in ROM0, the operands in ROMX; with the window top at 0x4000 it faults. -/
theorem test_jp_straddles :
    step (rig [(0x3FFF, 0xC3#8)] [(0, 0x34#8), (1, 0x12#8)] 0x3FFF#16) =
      .next { rig [(0x3FFF, 0xC3#8)] [(0, 0x34#8), (1, 0x12#8)] 0x3FFF#16 with
        pc := 0x1234#16, trace := [.traceJump 0x1234#16] } ∧
    step (rig [(0x3FFF, 0xC3#8)] [(0, 0x34#8), (1, 0x12#8)] 0x3FFF#16 .top4000) =
      .next { rig [(0x3FFF, 0xC3#8)] [(0, 0x34#8), (1, 0x12#8)] 0x3FFF#16 .top4000 with
        fault := some (.outOfRangeAccess 0x4000#16) } := ⟨rfl, rfl⟩
/-- V-F1, V-F6: the latch alone changes, and then no step is enabled. -/
theorem test_unimplemented_stops :
    step (rig [(0x0100, 0x3E#8)] [] 0x0100#16) =
      .next { rig [(0x0100, 0x3E#8)] [] 0x0100#16 with fault := some (.unimplementedOpcode 0x3E#8 0x0100#16) } ∧
    step { rig [(0x0100, 0x3E#8)] [] 0x0100#16 with fault := some (.unimplementedOpcode 0x3E#8 0x0100#16) } =
      .fault (.stopped (.unimplementedOpcode 0x3E#8 0x0100#16)) := ⟨rfl, rfl⟩
/-- V-F4, V-J11: the low operand address is reported at 0x7FFF, the high one at 0x7FFE. -/
theorem test_operand_faults :
    step (rig [] [(0x3FFF, 0xC3#8)] 0x7FFF#16) =
      .next { rig [] [(0x3FFF, 0xC3#8)] 0x7FFF#16 with fault := some (.outOfRangeAccess 0x8000#16) } ∧
    step (rig [] [(0x3FFE, 0xC3#8), (0x3FFF, 0x34#8)] 0x7FFE#16) =
      .next { rig [] [(0x3FFE, 0xC3#8), (0x3FFF, 0x34#8)] 0x7FFE#16 with
        fault := some (.outOfRangeAccess 0x8000#16) } := ⟨rfl, rfl⟩

/-! ### Witnesses: states and operands that meet the hypotheses of each statement -/

/-- A NOP at the top of the window, and one at the top when the top is 0x4000. -/
def nopAtTop : State := rig [] [] 0x7FFF#16
/-- A JP to its own address at 0x0100. -/
def selfJump : State := rig [(0x0100, 0xC3#8), (0x0102, 0x01#8)] [] 0x0100#16
/-- A JP whose target 0x8000 is the first address outside the window. -/
def jumpOut : State := rig [(0x0100, 0xC3#8), (0x0102, 0x80#8)] [] 0x0100#16
/-- A JP across the bank boundary. -/
def straddle (top : RomWindowTop) : State := rig [(0x3FFF, 0xC3#8)] [(0, 0x34#8), (1, 0x12#8)] 0x3FFF#16 top
/-- An opcode outside the map at the last byte of the window (V-F3). -/
def badOpcode : State := rig [] [(0x3FFF, 0x01#8)] 0x7FFF#16
/-- A JP at the last and at the last but one byte of the window. -/
def jumpAtLast : State := rig [] [(0x3FFF, 0xC3#8)] 0x7FFF#16
def jumpAtLastButOne : State := rig [] [(0x3FFE, 0xC3#8), (0x3FFF, 0x34#8)] 0x7FFE#16

theorem badOpcode_faults : badOpcode.fetchDecode = .error (.unimplementedOpcode 0x01#8 0x7FFF#16) := by decide

theorem witness_RegisterStoresAnyByte : Reg.f ≠ Reg.a := by decide

theorem witness_PairViewsAliasOnlyTheirRegisters :
    (Pair.high .bc ≠ Reg.a ∧ Pair.low .bc ≠ Reg.a) ∧ (Pair.low .af = Reg.f ∧ (0x01#8) ≠ State.reset.r8 .f) ∧
    (Reg.h ≠ Pair.high .af ∧ Reg.h ≠ Pair.low .af) ∧ Pair.af ≠ Pair.hl := by decide

theorem witness_FlagWriteTouchesOneBit : Flag.carry ≠ Flag.zero := by decide

theorem witness_RegionReadStaysInBounds :
    0x3FFF < Region.size .rom0 ∧ Region.size .rom0 ≤ 0x4000 ∧ Region.size .oam ≤ 0x2000 ∧
    State.reset.locate 0x7FFF#16 = some (.romx, 0x3FFF) ∧ State.reset.locate 0x8000#16 = none := by decide

theorem witness_ReadInterfaceFollowsAddressMap :
    (0x3FFF#16).toNat < 0x4000 ∧
    ((straddle .top8000).cfg.romWindowTop = .top8000 ∧ 0x4000 ≤ (0x4000#16).toNat ∧ (0x7FFF#16).toNat < 0x8000) ∧
    ((straddle .top4000).cfg.romWindowTop = .top4000 ∧ 0x4000 ≤ (0x4000#16).toNat) ∧
    0x8000 ≤ (0x8000#16).toNat := by decide

theorem witness_RomLoadFillsBothBanks : 0 < 0x4000 ∧ 0x3FFF < 0x4000 := by decide

theorem witness_RamRegionsStartZero : Region.oam ≠ .rom0 ∧ Region.oam ≠ .romx ∧ 0x1FFF < 0x2000 := by decide

/-- One step and two steps of a run, for the statements about steps and runs (MemoryIsConstantInEveryRun,
StepKeepsInvariant, RegistersAndSpKeepResetValues, TraceRecordsExecutedInstructions with the trace on). -/
theorem witness_run_of_steps :
    step nopAtTop = .next { nopAtTop with pc := 0x8000#16, trace := [.traceNop] } ∧
    StepsTo 2 nopAtTop { nopAtTop with
      pc := 0x8000#16, trace := [.traceNop], fault := some (.outOfRangeAccess 0x8000#16) } ∧
    nopAtTop.cfg.traceEnable = true := ⟨rfl, ⟨_, rfl, _, rfl, rfl⟩, rfl⟩

/-- A run from construction with a non-empty ROM (FetchCoherentWithImage, EveryRunMeetsInvariant,
RegistersAndSpKeepResetValues, ResetRestartsTheMachine), and an address at the edge of the window. -/
theorem witness_run_from_construction :
    StepsTo 1 (State.construct Config.default [0x11#8, 0x22#8])
      { State.construct Config.default [0x11#8, 0x22#8] with pc := 0x0101#16, trace := [.traceNop] } ∧
    (0x7FFF#16).toNat < Config.default.romWindowTop.addr.toNat := ⟨⟨_, rfl, rfl⟩, by decide⟩

theorem witness_CanonicalMemoryIsUnique :
    jumpOut.mem.wf = true ∧ ∀ (r : Region) (off : Nat), jumpOut.mem.regionRead r off = jumpOut.mem.regionRead r off :=
  ⟨by decide, fun _ _ => rfl⟩

theorem witness_RamRegionsAreUnobservable :
    AgreeOutsideRam nopAtTop { nopAtTop with mem := { nopAtTop.mem with wram := [(0, 0x5A#8)] } } ∧
    StepsTo 1 nopAtTop { nopAtTop with pc := 0x8000#16, trace := [.traceNop] } := ⟨rfl, ⟨_, rfl, rfl⟩⟩

theorem witness_ControlDependsOnRomAlone :
    AgreeOnControl nopAtTop { nopAtTop with a := 0x5A#8, sp := 0x0000#16, trace := [.traceNop] } ∧
    StepsTo 1 nopAtTop { nopAtTop with pc := 0x8000#16, trace := [.traceNop] } :=
  ⟨⟨rfl, rfl, rfl, rfl, rfl⟩, ⟨_, rfl, rfl⟩⟩

/-- A byte for each clause of OpcodeMapIsExact, the neighbours of 0xC3 among them; the last clause's bytes also serve
UnimplementedOpcodeHaltsProgress. -/
theorem witness_OpcodeMapIsExact :
    (0x00#8 : Byte) = 0x00#8 ∧ (0xC3#8 : Byte) = 0xC3#8 ∧ [0x34#8, 0x12#8] = (0x34#8 : Byte) :: 0x12#8 :: [] ∧
    (0xC2#8 ≠ 0x00#8 ∧ 0xC2#8 ≠ 0xC3#8) ∧ (0xC4#8 ≠ 0x00#8 ∧ 0xC4#8 ≠ 0xC3#8) := by decide

theorem witness_DecodeInvertsEncode : Instr.wf (.jp 0xFF#8 0x00#8) = true := rfl

theorem witness_EncodeInvertsDecode : decode [0xC3#8, 0xFF#8, 0xFF#8, 0x00#8] = .ok (.jp 0xFF#8 0xFF#8, [0x00#8]) := rfl

theorem witness_StepRunsDecodedInstruction :
    jumpOut.fault = none ∧ jumpOut.fetchDecode = .ok (.jp 0x00#8 0x80#8) ∧ Instr.wf (.jp 0x00#8 0x80#8) = true ∧
    ∀ (n : Nat) (byte : Byte), (encode (.jp 0x00#8 0x80#8))[n]? = some byte →
      jumpOut.memRead (jumpOut.pc + BitVec.ofNat 16 n) = .ok byte :=
  ⟨rfl, rfl, rfl, fun n byte h => match n, h with
    | 0, h => by cases h; rfl
    | 1, h => by cases h; rfl
    | 2, h => by cases h; rfl
    | n + 3, h => by simp [encode] at h⟩

theorem witness_ExecuteWritesPcOnly : Instr.nop = .nop ∧ Instr.jp 0x00#8 0x80#8 = .jp 0x00#8 0x80#8 := ⟨rfl, rfl⟩

/-- NopAdvancesPcByOne: a readable NOP at the last byte of the window; PC at the window top; two NOPs in a row. -/
theorem witness_NopAdvancesPcByOne :
    (nopAtTop.fault = none ∧ nopAtTop.memRead nopAtTop.pc = .ok 0x00#8 ∧
      nopAtTop.pc.toNat + 1 = nopAtTop.cfg.romWindowTop.addr.toNat) ∧
    ((rig [] [] 0x8000#16).fault = none ∧
      (rig [] [] 0x8000#16).cfg.romWindowTop.addr.toNat ≤ (rig [] [] 0x8000#16).pc.toNat) ∧
    ∀ j, j < 2 → (rig [] [] 0x7FFE#16).memRead ((rig [] [] 0x7FFE#16).pc + BitVec.ofNat 16 j) = .ok 0x00#8 :=
  ⟨⟨rfl, rfl, rfl⟩, ⟨rfl, by decide⟩, fun j hj => match j, hj with
    | 0, _ => rfl
    | 1, _ => rfl⟩

/-- JpReplacesPcOutright: a readable JP with a target just outside the window; one whose low operand, and one whose
high operand, is the first address outside it. The fetch clause has the witness of NopAdvancesPcByOne. -/
theorem witness_JpReplacesPcOutright :
    (jumpOut.fault = none ∧ jumpOut.memRead jumpOut.pc = .ok 0xC3#8 ∧
      jumpOut.memRead (jumpOut.pc + 1#16) = .ok 0x00#8 ∧ jumpOut.memRead (jumpOut.pc + 2#16) = .ok 0x80#8 ∧
      (0x8000#16 : Word) = ((0x80#8).setWidth 16 <<< 8) ||| (0x00#8).setWidth 16 ∧
      jumpOut.cfg.romWindowTop.addr.toNat ≤ (0x8000#16 : Word).toNat) ∧
    (jumpAtLast.fault = none ∧ jumpAtLast.memRead jumpAtLast.pc = .ok 0xC3#8 ∧
      jumpAtLast.cfg.romWindowTop.addr.toNat ≤ (jumpAtLast.pc + 1#16).toNat) ∧
    (jumpAtLastButOne.fault = none ∧ jumpAtLastButOne.memRead jumpAtLastButOne.pc = .ok 0xC3#8 ∧
      (jumpAtLastButOne.pc + 1#16).toNat < jumpAtLastButOne.cfg.romWindowTop.addr.toNat ∧
      jumpAtLastButOne.cfg.romWindowTop.addr.toNat ≤ (jumpAtLastButOne.pc + 2#16).toNat) :=
  by decide

theorem witness_SelfJumpRepeatsForever :
    selfJump.fault = none ∧ selfJump.memRead selfJump.pc = .ok 0xC3#8 ∧
    selfJump.memRead (selfJump.pc + 1#16) = .ok (selfJump.pc.extractLsb' 0 8) ∧
    selfJump.memRead (selfJump.pc + 2#16) = .ok (selfJump.pc.extractLsb' 8 8) := ⟨rfl, rfl, rfl, rfl⟩

theorem witness_JumpStraddlesBankBoundary (top : RomWindowTop) :
    (straddle top).fault = none ∧ (straddle top).pc = 0x3FFF#16 ∧
    (straddle top).mem.regionRead .rom0 0x3FFF = some 0xC3#8 ∧
    (straddle top).mem.regionRead .romx 0 = some 0x34#8 ∧ (straddle top).mem.regionRead .romx 1 = some 0x12#8 ∧
    (straddle top).cfg.romWindowTop = top := ⟨rfl, rfl, rfl, rfl, rfl, rfl⟩

/-- TraceRecordsExecutedInstructions: a faulting step, a step with the trace off, and both kinds of executed step
(the NOP is in `witness_run_of_steps`). -/
theorem witness_TraceRecordsExecutedInstructions :
    (step badOpcode = .next (badOpcode.raise (.unimplementedOpcode 0x01#8 0x7FFF#16)) ∧
      (badOpcode.raise (.unimplementedOpcode 0x01#8 0x7FFF#16)).fault ≠ none) ∧
    (step { nopAtTop with cfg := { nopAtTop.cfg with traceEnable := false } } =
      .next { nopAtTop with pc := 0x8000#16, cfg := { nopAtTop.cfg with traceEnable := false } }) ∧
    (step jumpOut = .next { jumpOut with pc := 0x8000#16, trace := [.traceJump 0x8000#16] } ∧
      jumpOut.cfg.traceEnable = true) :=
  ⟨⟨step_error rfl badOpcode_faults, by decide⟩, rfl, rfl, rfl⟩

/-- PcMovesByNopOrJpOnly: steps of its three cases. -/
theorem witness_PcMovesByNopOrJpOnly :
    step badOpcode = .next (badOpcode.raise (.unimplementedOpcode 0x01#8 0x7FFF#16)) ∧
    step nopAtTop = .next { nopAtTop with pc := 0x8000#16, trace := [.traceNop] } ∧
    step jumpOut = .next { jumpOut with pc := 0x8000#16, trace := [.traceJump 0x8000#16] } :=
  ⟨step_error rfl badOpcode_faults, rfl, rfl⟩

theorem witness_FaultEntryIsPrecise :
    step badOpcode = .next (badOpcode.raise (.unimplementedOpcode 0x01#8 0x7FFF#16)) ∧
    (badOpcode.raise (.unimplementedOpcode 0x01#8 0x7FFF#16)).fault ≠ none :=
  ⟨step_error rfl badOpcode_faults, by decide⟩

theorem witness_DecodeReadsOnlyItsOwnBytes :
    jumpOut.pc = { jumpOut with a := 0x5A#8 }.pc ∧
    jumpOut.memRead jumpOut.pc = { jumpOut with a := 0x5A#8 }.memRead { jumpOut with a := 0x5A#8 }.pc ∧
    jumpOut.memRead jumpOut.pc = .ok 0xC3#8 ∧
    jumpOut.memRead (jumpOut.pc + 1#16) = { jumpOut with a := 0x5A#8 }.memRead (jumpOut.pc + 1#16) ∧
    jumpOut.memRead (jumpOut.pc + 2#16) = { jumpOut with a := 0x5A#8 }.memRead (jumpOut.pc + 2#16) :=
  ⟨rfl, rfl, rfl, rfl, rfl⟩

theorem witness_UnimplementedOpcodeHaltsProgress :
    badOpcode.fault = none ∧ badOpcode.memRead badOpcode.pc = .ok 0x01#8 ∧ 0x01#8 ≠ 0x00#8 ∧ 0x01#8 ≠ 0xC3#8 := by decide

/-- FirstFaultingReadIsReported: each of its four cases holds somewhere, at the edge of the window. -/
theorem witness_FirstFaultingReadIsReported :
    ((rig [] [] 0x8000#16).fault = none ∧
      (rig [] [] 0x8000#16).cfg.romWindowTop.addr.toNat ≤ (rig [] [] 0x8000#16).pc.toNat) ∧
    (badOpcode.fault = none ∧ badOpcode.memRead badOpcode.pc = .ok 0x01#8) ∧
    (jumpAtLast.fault = none ∧ jumpAtLast.memRead jumpAtLast.pc = .ok 0xC3#8 ∧
      jumpAtLast.cfg.romWindowTop.addr.toNat = jumpAtLast.pc.toNat + 1) ∧
    (jumpAtLastButOne.fault = none ∧ jumpAtLastButOne.memRead jumpAtLastButOne.pc = .ok 0xC3#8 ∧
      jumpAtLastButOne.cfg.romWindowTop.addr.toNat = jumpAtLastButOne.pc.toNat + 2) :=
  by decide

/-- StepEnabledIffLatchClear and StepChangesPcOrLatchOnly: a state with the latch clear. -/
theorem witness_latch_clear : nopAtTop.fault = none ∧ badOpcode.fault = none := ⟨rfl, rfl⟩

/-- LatchIsWrittenOnceAndStops: a stopped state, a run of at least one step, a run that ends stopped. -/
theorem witness_LatchIsWrittenOnceAndStops :
    (badOpcode.raise (.unimplementedOpcode 0x01#8 0x7FFF#16)).fault = some (.unimplementedOpcode 0x01#8 0x7FFF#16) ∧
    StepsTo 1 badOpcode (badOpcode.raise (.unimplementedOpcode 0x01#8 0x7FFF#16)) ∧ 0 < 1 ∧
    StepsTo 0 (badOpcode.raise (.unimplementedOpcode 0x01#8 0x7FFF#16))
      (badOpcode.raise (.unimplementedOpcode 0x01#8 0x7FFF#16)) := 
  ⟨rfl, ⟨_, step_error rfl badOpcode_faults, rfl⟩, by decide, rfl⟩

theorem witness_ResetLeavesTheTableOfValues :
    State.reset = State.construct Config.default [] ∧ 0x3FFF < 0x4000 ∧ Region.vram ≠ .rom0 ∧ Region.vram ≠ .romx ∧
    0x1FFF < 0x2000 := ⟨rfl, by decide, by decide, by decide, by decide⟩

theorem witness_ResetRestartsTheMachine :
    (badOpcode.raise (.unimplementedOpcode 0x01#8 0x7FFF#16)).cfg = badOpcode.cfg := rfl

/-- StepKeepsInvariant: states with the latch clear and with the latch set meet the invariant. -/
theorem witness_StepKeepsInvariant :
    jumpOut.Inv ∧ (∃ t, step jumpOut = .next t) ∧
    (badOpcode.raise (.unimplementedOpcode 0x01#8 0x7FFF#16)).Inv :=
  ⟨⟨by decide, trivial⟩, ⟨_, rfl⟩, ⟨by decide, badOpcode_faults⟩⟩

theorem witness_PlacedInstructionIsRunNext :
    (rig [] [] 0x7FFD#16).fault = none ∧ (rig [] [] 0x7FFD#16).mem.wf = true ∧
    (rig [] [] 0x7FFD#16).pc.toNat + 2 < (rig [] [] 0x7FFD#16).cfg.romWindowTop.addr.toNat ∧
    decodeTableWord 24 0x1234C3 = some (.jp 0x34#8 0x12#8) := ⟨rfl, by decide, by decide, by decide⟩

end Sys2Proof.Tests
end

section
/-! PROOFS. Registers, pair views and SP (10_state.md). First the frame of a step and of a run over SP and the eight
registers, then the statements of that family. -/

namespace Sys2Proof.Machine

/-! ### The frame of a step and of a run over the registers -/

/-- SP and the eight 8-bit registers are the same in both states (10_state.md R23, R38). -/
def SameRegisters (s t : State) : Prop := t.sp = s.sp ∧ ∀ r : Reg, t.r8 r = s.r8 r

theorem step_sameRegisters {s t : State} (h : step s = .next t) : SameRegisters s t := by
  obtain ⟨-, ⟨i, -, rfl⟩ | ⟨f, -, rfl⟩⟩ := step_next_cases h
  · exact ⟨by simp, fun r => by simp⟩
  · exact ⟨State.raise_sp s f, fun r => State.raise_r8 s r f⟩

theorem StepsTo_sameRegisters {k : Nat} {s t : State} (h : StepsTo k s t) : SameRegisters s t := by
  refine StepsTo_induct (P := SameRegisters s) ?_ k s t ⟨rfl, fun _ => rfl⟩ h
  intro u u' ⟨hsp, hreg⟩ hstep
  obtain ⟨hsp', hreg'⟩ := step_sameRegisters hstep
  exact ⟨hsp'.trans hsp, fun r => (hreg' r).trans (hreg r)⟩

/-! ### SP is not read -/

theorem State.fetchDecode_withSp (s : State) (v : Word) : { s with sp := v }.fetchDecode = s.fetchDecode :=
  State.fetchDecode_congr rfl rfl rfl rfl

/-- SP passes through execute: replacing it before or after is the same. -/
theorem exec_withSp {i : Instr} {s t : State} (v : Word) (h : exec i s = .next t) :
    exec i { s with sp := v } = .next { t with sp := v } := by
  rw [exec_eq] at h ⊢
  cases h
  simp only [State.emit_eq]
  rfl

/-- SP passes through a step: replacing it before or after is the same, whether the step executes or faults. -/
theorem step_withSp {s t : State} (v : Word) (h : step s = .next t) :
    step { s with sp := v } = .next { t with sp := v } := by
  obtain ⟨hclear, hcases⟩ := step_next_cases h
  have hclear' : { s with sp := v }.fault = none := hclear
  rcases hcases with ⟨i, hd, -⟩ | ⟨f, hd, rfl⟩
  · rw [step_ok hclear hd] at h
    rw [step_ok hclear' ((State.fetchDecode_withSp s v).trans hd)]
    exact exec_withSp v h
  · exact step_error hclear' ((State.fetchDecode_withSp s v).trans hd)

/-- Settles O42: SP and the registers are framed by every step, so by every run from the constructed state; and no
step reads SP. -/
theorem registersAndSpKeepResetValues : Obligations.RegistersAndSpKeepResetValues := by
  unfold Obligations.RegistersAndSpKeepResetValues
  constructor
  · intro cfg rom k s hrun
    obtain ⟨hsp, hreg⟩ := StepsTo_sameRegisters hrun
    exact ⟨hsp.trans (State.construct_sp cfg rom), fun r => (hreg r).trans (State.construct_r8 r cfg rom)⟩
  · intro s t v hstep
    obtain ⟨hsp, hreg⟩ := step_sameRegisters hstep
    exact ⟨hsp, step_withSp v hstep, hreg⟩

/-! ### Pair views -/

/-- The value of a view as a number, from the two registers it names (10_state.md R25). -/
theorem State.rp_toNat (s : State) (p : Pair) :
    (s.rp p).toNat = 256 * (s.r8 p.high).toNat + (s.r8 p.low).toNat :=
  concatBytes_toNat (s.r8 p.high) (s.r8 p.low)

/-- Settles O1: the composed word is the definition of a view; its number is `State.rp_toNat`. -/
theorem pairReadComposesHighLow : Obligations.PairReadComposesHighLow := by
  intro s
  exact ⟨⟨rfl, s.rp_toNat .af⟩, ⟨rfl, s.rp_toNat .bc⟩, ⟨rfl, s.rp_toNat .de⟩, ⟨rfl, s.rp_toNat .hl⟩⟩

/-- Settles O2: for each view the two register writes of `State.setRp` are the one record update. -/
theorem pairWriteSplitsHighLow : Obligations.PairWriteSplitsHighLow := by
  intro s v
  exact ⟨rfl, rfl, rfl, rfl⟩

end Sys2Proof.Machine
end

section
/-! PROOFS. Memory (20_memory.md). The frame of a step and of a run over Memory, the five regions the load leaves
empty, and the statements of that family. -/

namespace Sys2Proof.Machine

/-! ### The frame of a step and of a run over Memory -/

/-- Neither execute nor taking a fault writes Memory. -/
theorem step_mem {s t : State} (h : step s = .next t) : t.mem = s.mem := by
  obtain ⟨-, ⟨i, -, rfl⟩ | ⟨f, -, rfl⟩⟩ := step_next_cases h
  · rw [State.emit_mem, State.setPc_mem]
  · exact State.raise_mem s f

theorem StepsTo_mem {k : Nat} {s t : State} (h : StepsTo k s t) : t.mem = s.mem :=
  StepsTo_induct (P := fun u => u.mem = s.mem) (fun _ _ hu hstep => (step_mem hstep).trans hu) k s t rfl h

/-- Settles O11: the frame of a step over Memory, carried along the run; equal memories read alike. -/
theorem memoryIsConstantInEveryRun : Obligations.MemoryIsConstantInEveryRun := by
  unfold Obligations.MemoryIsConstantInEveryRun
  constructor
  · intro s t hstep
    exact step_mem hstep
  · intro k s t hrun
    have hmem : t.mem = s.mem := StepsTo_mem hrun
    exact ⟨hmem, fun r off => by rw [hmem]⟩

/-! ### The regions the ROM load leaves empty -/

/-- The size of every region but the two ROM banks (table of R50). -/
theorem Region.size_of_not_rom {r : Region} (h0 : r ≠ .rom0) (hx : r ≠ .romx) : r.size = 0x2000 := by
  cases r with
  | rom0 => exact absurd rfl h0
  | romx => exact absurd rfl hx
  | vram | xram | wram | echo | oam => rfl

/-- The load lists no cell outside the two ROM banks (R53). -/
theorem Memory.cells_load_of_not_rom (fill : Byte) (rom : List Byte) {r : Region} (h0 : r ≠ .rom0)
    (hx : r ≠ .romx) : (Memory.load fill rom).cells r = [] := by
  cases r with
  | rom0 => exact absurd rfl h0
  | romx => exact absurd rfl hx
  | vram | xram | wram | echo | oam => rfl

/-- Settles O10: a region without cells reads the unlisted byte, 0x00, at each of its offsets. -/
theorem ramRegionsStartZero : Obligations.RamRegionsStartZero := by
  intro fill rom r off h0 hx hoff
  have hlt : off < r.size := by rwa [Region.size_of_not_rom h0 hx]
  rw [Memory.regionRead_of_lt _ hlt, Memory.cells_load_of_not_rom fill rom h0 hx, cellsRead_nil]
  rfl

end Sys2Proof.Machine
end

section
/-! PROOFS. Encoding and the decoder (30_encoding.md). First what `decode` answers for each opcode byte at the head of
a sequence and what executing a jump leaves in PC, then the statements of that family. -/

namespace Sys2Proof

/-! ### What `decode` answers for each opcode byte -/

/-- A nonempty sequence is decoded by its first byte, the operands read from the sequence itself (R80). -/
theorem decode_cons (op : Byte) (rest : List Byte) :
    decode (op :: rest) = (decodeOpcode (byteAt (op :: rest)) (.unimplementedOpcode op) op).map
      (fun i => (i, (op :: rest).drop i.length)) := by
  simp only [decode, byteAt, List.getElem?_cons_zero]
  split <;> next h => rw [h]; rfl

theorem decode_nop (rest : List Byte) : decode (0x00#8 :: rest) = .ok (.nop, rest) := by
  rw [decode_cons, decodeOpcode_nop]
  rfl

theorem decode_jp (lo hi : Byte) (tail : List Byte) :
    decode (0xC3#8 :: lo :: hi :: tail) = .ok (.jp lo hi, tail) := by
  rw [decode_cons, decodeOpcode_jp]
  rfl

theorem decode_other {op : Byte} (rest : List Byte) (h0 : op ≠ 0x00#8) (h1 : op ≠ 0xC3#8) :
    decode (op :: rest) = .error (.unimplementedOpcode op) := by
  rw [decode_cons, decodeOpcode_other _ _ op h0 h1]
  rfl

/-- Settles O15: its three clauses are what `decode` answers for 0x00, for 0xC3 and for every other byte. -/
theorem opcodeMapIsExact : Obligations.OpcodeMapIsExact := by
  intro op rest
  refine ⟨?nop, ?jp, decode_other rest⟩
  case nop =>
    rintro rfl
    exact decode_nop rest
  case jp =>
    rintro lo hi tail rfl rfl
    exact decode_jp lo hi tail

end Sys2Proof

namespace Sys2Proof.Machine

/-! ### The jump's target -/

/-- The target as a number: absolute and unscaled, the low operand byte least significant (R82). -/
theorem jumpTarget_toNat (lo hi : Byte) : (jumpTarget lo hi).toNat = 256 * hi.toNat + lo.toNat :=
  concatBytes_toNat hi lo

/-- Executing a jump completes with PC at the target, wherever PC was (R120). -/
theorem exec_jp_pc (lo hi : Byte) (s : State) :
    ∃ t, exec (.jp lo hi) s = .next t ∧ t.pc = jumpTarget lo hi :=
  ⟨_, exec_eq (.jp lo hi) s, by rw [State.emit_pc, State.setPc_pc]; rfl⟩

/-- Settles O21: `decode` carries the two raw bytes and `exec` composes them; the worked example is the case of the
bytes 0x34, 0x12. -/
theorem immediateIsLittleEndianAbsolute : Obligations.ImmediateIsLittleEndianAbsolute := by
  constructor
  · intro lo hi s
    obtain ⟨t, hexec, hpc⟩ := exec_jp_pc lo hi s
    exact ⟨decode_jp lo hi [], t, hexec, hpc, by rw [hpc, jumpTarget_toNat]⟩
  · intro s
    obtain ⟨t, hexec, hpc⟩ := exec_jp_pc 0x34#8 0x12#8 s
    have htarget : jumpTarget 0x34#8 0x12#8 = 0x1234#16 := by decide
    exact ⟨t, decode_jp 0x34#8 0x12#8 [], hexec, hpc.trans htarget⟩

end Sys2Proof.Machine
end

section
/-! PROOFS. The execution cycle (40_cycle.md). The record update that execute is, its independence of Memory, and the
statement of that family. -/

namespace Sys2Proof.Machine

/-- Execute as one record update: PC and the trace are the only fields written (R105). -/
theorem exec_eq_update (i : Instr) (s : State) :
    exec i s = .next { s with
      pc := nextPc i s.pc, trace := if s.cfg.traceEnable then eventOf i :: s.trace else s.trace } := by
  rw [exec_eq, State.emit_eq]
  rfl

/-- Memory passes through execute: replacing it before or after is the same, so execute reads none of it (R105). -/
theorem exec_withMem {i : Instr} {s t : State} (m : Memory) (h : exec i s = .next t) :
    exec i { s with mem := m } = .next { t with mem := m } := by
  rw [exec_eq_update] at h ⊢
  cases h
  rfl

/-- Settles O24: the next state is the record update of `exec_eq_update`, whose PC is that of the instruction; every
other field, and so every read, is that of the state before. -/
theorem executeWritesPcOnly : Obligations.ExecuteWritesPcOnly := by
  intro i s
  have hexec := exec_eq_update i s
  refine ⟨_, hexec, ?pcNop, ?pcJp, ?registers, rfl, rfl, rfl, ?regions, ?reads, rfl, fun m => exec_withMem m hexec⟩
  case pcNop =>
    rintro rfl
    rfl
  case pcJp =>
    rintro lo hi rfl
    rfl
  case registers =>
    intro r
    cases r <;> rfl
  case regions =>
    intro r off
    rfl
  case reads =>
    intro addr
    exact State.memRead_congr addr rfl rfl rfl

end Sys2Proof.Machine
end

section
/-! PROOFS. The no-operation (41_nop.md). First the state NOP leaves, the step at a readable 0x00 and the step outside
the ROM window, then a run over consecutive zero bytes, then the statement of that family. -/

namespace Sys2Proof.Machine

/-! ### The state NOP leaves -/

/-- The state after NOP's execute (R115); `exec_nop` ties it to `exec`. -/
def State.afterNop (s : State) : State := (s.setPc (add16 s.pc 1)).emit .traceNop

theorem exec_nop (s : State) : exec .nop s = .next s.afterNop := exec_eq .nop s

@[simp] theorem State.afterNop_pc (s : State) : s.afterNop.pc = add16 s.pc 1 := State.emit_pc _ _
@[simp] theorem State.afterNop_fault (s : State) : s.afterNop.fault = s.fault := State.emit_fault _ _
@[simp] theorem State.afterNop_mem (s : State) : s.afterNop.mem = s.mem := State.emit_mem _ _
@[simp] theorem State.afterNop_cfg (s : State) : s.afterNop.cfg = s.cfg := State.emit_cfg _ _
@[simp] theorem State.afterNop_memRead (s : State) (addr : Word) : s.afterNop.memRead addr = s.memRead addr :=
  State.memRead_congr addr (by simp) (by simp) (by simp)

/-! ### The step at a readable 0x00 and the step outside the ROM window -/

theorem step_eq_exec_nop {s : State} (hready : s.fault = none) (hop : s.memRead s.pc = .ok 0x00#8) :
    step s = exec .nop s :=
  step_ok hready (State.fetchDecode_nop hop)

theorem step_nop {s : State} (hready : s.fault = none) (hop : s.memRead s.pc = .ok 0x00#8) :
    step s = .next s.afterNop :=
  (step_eq_exec_nop hready hop).trans (exec_nop s)

/-- With PC outside the ROM window the opcode fetch faults, and PC is the failing address (R132). -/
theorem step_outside {s : State} (hready : s.fault = none)
    (hout : s.cfg.romWindowTop.addr.toNat ≤ s.pc.toNat) :
    step s = .next (s.raise (.outOfRangeAccess s.pc)) :=
  step_error hready (State.fetchDecode_fetchFault (State.memRead_outside hout))

/-- Neither admitted window reaches 0xFFFF, so no opcode byte is read there (R115, corner case 3). -/
theorem State.memRead_last_address (s : State) :
    s.memRead 0xFFFF#16 = .error (.outOfRangeAccess 0xFFFF#16) := by
  apply State.memRead_outside
  rw [BitVec.toNat_ofNat]
  have htop := windowTop_toNat s.cfg
  omega

/-- The address after the last byte of the window is the window's top, without wrapping. -/
theorem add16_one_eq_windowTop {cfg : Config} {a : Word} (hlast : a.toNat + 1 = cfg.romWindowTop.addr.toNat) :
    add16 a 1 = cfg.romWindowTop.addr := by
  apply BitVec.eq_of_toNat_eq
  have htop := windowTop_toNat cfg
  rw [add16_toNat_of_lt a 1 (by omega), hlast]

/-- After a NOP at the last byte of the window the fetch faults at the window's top (R115, corner case 1). -/
theorem step_afterNop_at_windowTop {s : State} (hready : s.fault = none)
    (hlast : s.pc.toNat + 1 = s.cfg.romWindowTop.addr.toNat) :
    step s.afterNop = .next (s.afterNop.raise (.outOfRangeAccess s.cfg.romWindowTop.addr)) := by
  have hpc : s.afterNop.pc = s.cfg.romWindowTop.addr := by
    rw [State.afterNop_pc, add16_one_eq_windowTop hlast]
  have hout : s.afterNop.cfg.romWindowTop.addr.toNat ≤ s.afterNop.pc.toNat := by
    rw [hpc, State.afterNop_cfg]
  rw [step_outside (by rw [State.afterNop_fault, hready]) hout, hpc]

/-! ### A run over consecutive zero bytes -/

theorem add16_zero (a : Word) : add16 a 0 = a := BitVec.add_zero a

/-- Advancing an address twice is advancing it by the sum, modulo 0x10000 (R9). -/
theorem add16_add16 (a : Word) (m n : Nat) : add16 (add16 a m) n = add16 a (m + n) := by
  rw [add16, add16, add16, BitVec.add_assoc, BitVec.ofNat_add]

/-- `n` readable zero bytes from PC on run as `n` NOPs (R115, corner case 4). -/
theorem StepsTo_nops (n : Nat) (s : State) (hready : s.fault = none)
    (hzeros : ∀ j, j < n → s.memRead (add16 s.pc j) = .ok 0x00#8) :
    ∃ t, StepsTo n s t ∧ t.fault = none ∧ t.pc = add16 s.pc n := by
  induction n generalizing s with
  | zero => exact ⟨s, rfl, hready, (add16_zero s.pc).symm⟩
  | succ n ih =>
    have hop : s.memRead s.pc = .ok 0x00#8 := add16_zero s.pc ▸ hzeros 0 n.succ_pos
    have hadvance (j : Nat) : add16 s.afterNop.pc j = add16 s.pc (j + 1) := by
      rw [State.afterNop_pc, add16_add16, Nat.add_comm]
    have hzeros' (j : Nat) (hj : j < n) : s.afterNop.memRead (add16 s.afterNop.pc j) = .ok 0x00#8 := by
      rw [hadvance, State.afterNop_memRead]
      exact hzeros (j + 1) (Nat.succ_lt_succ hj)
    obtain ⟨t, hrun, hclear, hpc⟩ := ih s.afterNop (by rw [State.afterNop_fault, hready]) hzeros'
    exact ⟨t, ⟨s.afterNop, step_nop hready hop, hrun⟩, hclear, hpc.trans (hadvance n)⟩

/-- Settles O25: NOP's execute is the record update of `exec_eq_update`; a ready step is that execute or the fetch
fault; at the window's top the second follows the first; zero bytes run by induction on their number. -/
theorem nopAdvancesPcByOne : Obligations.NopAdvancesPcByOne := by
  refine ⟨exec_eq_update .nop, ?step, ?fetchFault, ?lastByte, ?lastAddress, StepsTo_nops⟩
  case step =>
    intro s hready hop
    exact step_eq_exec_nop hready hop
  case fetchFault =>
    intro s hready hout
    exact step_outside hready hout
  case lastByte =>
    intro s hready hop hlast
    exact ⟨s.afterNop, step_nop hready hop, (State.afterNop_fault s).trans hready,
      (State.afterNop_pc s).trans (add16_one_eq_windowTop hlast), step_afterNop_at_windowTop hready hlast⟩
  case lastAddress =>
    intro s op hread
    rw [State.memRead_last_address] at hread
    cases hread

end Sys2Proof.Machine
end

section
/-! PROOFS. The absolute jump (42_jp.md). First the state JP leaves, then the step at a readable JP and the two operand
faults, then the step after a jump out of the ROM window, then the statement of that family. -/

namespace Sys2Proof.Machine

/-! ### The state JP leaves -/

/-- The state after JP's execute (R120); `exec_jp` ties it to `exec`. -/
def State.afterJp (s : State) (lo hi : Byte) : State :=
  (s.setPc (jumpTarget lo hi)).emit (.traceJump (jumpTarget lo hi))

theorem exec_jp (lo hi : Byte) (s : State) : exec (.jp lo hi) s = .next (s.afterJp lo hi) := exec_eq (.jp lo hi) s

@[simp] theorem State.afterJp_pc (s : State) (lo hi : Byte) : (s.afterJp lo hi).pc = jumpTarget lo hi :=
  State.emit_pc _ _
@[simp] theorem State.afterJp_fault (s : State) (lo hi : Byte) : (s.afterJp lo hi).fault = s.fault :=
  State.emit_fault _ _
@[simp] theorem State.afterJp_cfg (s : State) (lo hi : Byte) : (s.afterJp lo hi).cfg = s.cfg :=
  State.emit_cfg _ _

/-! ### The step at a readable JP and the two operand faults -/

theorem step_eq_exec_jp {s : State} {lo hi : Byte} (hready : s.fault = none) (hop : s.memRead s.pc = .ok 0xC3#8)
    (hlo : s.memRead (add16 s.pc 1) = .ok lo) (hhi : s.memRead (add16 s.pc 2) = .ok hi) :
    step s = exec (.jp lo hi) s :=
  step_ok hready (State.fetchDecode_jp hop hlo hhi)

theorem step_jp {s : State} {lo hi : Byte} (hready : s.fault = none) (hop : s.memRead s.pc = .ok 0xC3#8)
    (hlo : s.memRead (add16 s.pc 1) = .ok lo) (hhi : s.memRead (add16 s.pc 2) = .ok hi) :
    step s = .next (s.afterJp lo hi) :=
  (step_eq_exec_jp hready hop hlo hhi).trans (exec_jp lo hi s)

/-- The low operand is read first, so its fault is reported whatever the high operand's read would do (R120). -/
theorem step_jp_lowOutside {s : State} (hready : s.fault = none) (hop : s.memRead s.pc = .ok 0xC3#8)
    (hout : s.cfg.romWindowTop.addr.toNat ≤ (add16 s.pc 1).toNat) :
    step s = .next (s.raise (.outOfRangeAccess (add16 s.pc 1))) :=
  step_error hready (State.fetchDecode_lowFault hop (State.memRead_outside hout))

/-- With the low operand inside the window, the high operand's fault is reported, whatever byte the low one is
(R120). -/
theorem step_jp_highOutside {s : State} (hready : s.fault = none) (hop : s.memRead s.pc = .ok 0xC3#8)
    (hin : (add16 s.pc 1).toNat < s.cfg.romWindowTop.addr.toNat)
    (hout : s.cfg.romWindowTop.addr.toNat ≤ (add16 s.pc 2).toNat) :
    step s = .next (s.raise (.outOfRangeAccess (add16 s.pc 2))) := by
  obtain ⟨lo, hlo⟩ := State.memRead_isOk_iff.mpr hin
  exact step_error hready (State.fetchDecode_highFault hop hlo (State.memRead_outside hout))

/-! ### The step after a jump out of the ROM window -/

/-- The target was not checked: after a jump out of the window the next fetch faults at the target (R120). -/
theorem step_afterJp_outside {s : State} {lo hi : Byte} (hready : s.fault = none)
    (hout : s.cfg.romWindowTop.addr.toNat ≤ (jumpTarget lo hi).toNat) :
    step (s.afterJp lo hi) = .next ((s.afterJp lo hi).raise (.outOfRangeAccess (jumpTarget lo hi))) := by
  have hready' : (s.afterJp lo hi).fault = none := by rw [State.afterJp_fault, hready]
  have hout' : (s.afterJp lo hi).cfg.romWindowTop.addr.toNat ≤ (s.afterJp lo hi).pc.toNat := by
    rw [State.afterJp_cfg, State.afterJp_pc]
    exact hout
  rw [step_outside hready' hout', State.afterJp_pc]

/-- Settles O26: JP's execute is the record update of `exec_eq_update`; a ready step is that execute or the fault of the
first of the three reads that is outside the window; a target outside it is loaded and faults at the next fetch. -/
theorem jpReplacesPcOutright : Obligations.JpReplacesPcOutright := by
  refine ⟨fun lo hi => exec_eq_update (.jp lo hi), ?step, ?fetchFault, ?lowFault, ?highFault, ?targetOutside⟩
  case step =>
    intro s lo hi hready hop hlo hhi
    exact step_eq_exec_jp hready hop hlo hhi
  case fetchFault =>
    intro s hready hout
    exact step_outside hready hout
  case lowFault =>
    intro s hready hop hout
    exact step_jp_lowOutside hready hop hout
  case highFault =>
    intro s hready hop hin hout
    exact step_jp_highOutside hready hop hin hout
  case targetOutside =>
    rintro s lo hi target hready hop hlo hhi rfl hout
    exact ⟨s.afterJp lo hi, step_jp hready hop hlo hhi, (State.afterJp_fault s lo hi).trans hready,
      State.afterJp_pc s lo hi, step_afterJp_outside hready hout⟩

end Sys2Proof.Machine
end

section
/-! PROOFS. Exceptions (60_exceptions.md). The step at an opcode byte outside the opcode map, then the statement of that
family. -/

namespace Sys2Proof.Machine

/-- At a readable byte other than 0x00 and 0xC3 the decode fails, and the byte and PC are the payload (R131). -/
theorem step_unimplemented {s : State} {op : Byte} (hready : s.fault = none) (hop : s.memRead s.pc = .ok op)
    (h0 : op ≠ 0x00#8) (h1 : op ≠ 0xC3#8) : step s = .next (s.raise (.unimplementedOpcode op s.pc)) :=
  step_error hready (State.fetchDecode_unimplemented hop h0 h1)

/-- Settles O33: the step's clause is `step_unimplemented`, `State.raise` being the update of the latch alone; the
decode's is `decodeOpcode_other`, in which the operand reads are arbitrary. -/
theorem unimplementedOpcodeHaltsProgress : Obligations.UnimplementedOpcodeHaltsProgress := by
  constructor
  · intro s op hready hop h0 h1
    exact step_unimplemented hready hop h0 h1
  · intro op operand u h0 h1
    exact decodeOpcode_other operand u op h0 h1

end Sys2Proof.Machine
end

section
/-! PROOFS. Steps and runs (40_cycle.md, 60_exceptions.md). A step that ends with the latch clear executed, one that
ends with it set faulted; the frame of a step over the parameters; simulation of runs step by step; then the statements
about the latch, about runs of related states and about the invariant. -/

namespace Sys2Proof.Machine

/-! ### The two ways a step ends -/

/-- A step that ends with the latch clear executed the decoded instruction. -/
theorem step_executed {s t : State} (h : step s = .next t) (hclear : t.fault = none) :
    ∃ i, s.fetchDecode = .ok i ∧ exec i s = .next t := by
  obtain ⟨hready, ⟨i, hd, -⟩ | ⟨f, -, rfl⟩⟩ := step_next_cases h
  · exact ⟨i, hd, (step_ok hready hd).symm.trans h⟩
  · cases hclear

/-- A step that ends with the latch set faulted in fetch or decode, and only took the fault. -/
theorem step_faulted {s t : State} (h : step s = .next t) (hset : t.fault ≠ none) :
    ∃ f, s.fetchDecode = .error f ∧ t = s.raise f := by
  obtain ⟨hready, ⟨i, -, rfl⟩ | hfault⟩ := step_next_cases h
  · exact absurd (by rw [State.emit_fault, State.setPc_fault, hready]) hset
  · exact hfault

theorem step_ready {s t : State} (h : step s = .next t) : s.fault = none := (step_next_cases h).1

/-- With the latch clear a step is enabled, whatever fetch and decode answer (R101). -/
theorem step_enabled {s : State} (hready : s.fault = none) : ∃ t, step s = .next t := by
  cases hd : s.fetchDecode with
  | error f => exact ⟨_, step_error hready hd⟩
  | ok i => exact ⟨_, (step_ok hready hd).trans (exec_eq i s)⟩

/-- The parameters are fixed for a run (R42). -/
theorem step_cfg {s t : State} (h : step s = .next t) : t.cfg = s.cfg := by
  obtain ⟨-, ⟨i, -, rfl⟩ | ⟨f, -, rfl⟩⟩ := step_next_cases h
  · rw [State.emit_cfg, State.setPc_cfg]
  · exact State.raise_cfg s f

theorem StepsTo_cfg {k : Nat} {s t : State} (h : StepsTo k s t) : t.cfg = s.cfg :=
  StepsTo_induct (P := fun u => u.cfg = s.cfg) (fun _ _ hu hstep => (step_cfg hstep).trans hu) k s t rfl h

/-! ### Simulation -/

/-- A relation that every step of the first state carries to some step of the second carries over to runs. -/
theorem StepsTo_simulate {R : State → State → Prop}
    (hsim : ∀ s t s', R s t → step s = .next s' → ∃ t', step t = .next t' ∧ R s' t') :
    ∀ (k : Nat) (s t s' : State), R s t → StepsTo k s s' → ∃ t', StepsTo k t t' ∧ R s' t'
  | 0, _, t, _, hR, hrun => ⟨t, rfl, hrun ▸ hR⟩
  | k + 1, s, t, s', hR, ⟨u, hstep, hrun⟩ => by
    obtain ⟨v, hstep', hR'⟩ := hsim s t u hR hstep
    obtain ⟨t', hrun', hR''⟩ := StepsTo_simulate hsim k u v s' hR' hrun
    exact ⟨t', ⟨v, hstep', hrun'⟩, hR''⟩

theorem AgreeOnControl.fetchDecode_eq {s t : State} (h : AgreeOnControl s t) : s.fetchDecode = t.fetchDecode :=
  State.fetchDecode_congr h.pc h.rom0 h.romx h.top

/-- States that agree on control decode the same instruction or report the same fault, so their steps agree. -/
theorem AgreeOnControl.step_next {s t s' : State} (h : AgreeOnControl s t) (hstep : step s = .next s') :
    ∃ t', step t = .next t' ∧ AgreeOnControl s' t' := by
  obtain ⟨hready, ⟨i, hd, rfl⟩ | ⟨f, hd, rfl⟩⟩ := step_next_cases hstep
  · refine ⟨_, (step_ok (h.fault ▸ hready) (h.fetchDecode_eq ▸ hd)).trans (exec_eq i t), ?_⟩
    constructor
    case pc => simp [h.pc]
    case fault => simp [h.fault]
    case rom0 => simp [h.rom0]
    case romx => simp [h.romx]
    case top => simp [h.top]
  · exact ⟨_, step_error (h.fault ▸ hready) (h.fetchDecode_eq ▸ hd), h.pc, rfl, h.rom0, h.romx, h.top⟩

/-- Settles O32: agreement on control is a simulation. -/
theorem controlDependsOnRomAlone : Obligations.ControlDependsOnRomAlone :=
  StepsTo_simulate fun _ _ _ hagree hstep => hagree.step_next hstep

/-! ### The five regions no address reaches -/

/-- Agreement outside the five regions: the second state is the first with a Memory of the same two ROM banks. -/
theorem agreeOutsideRam_iff {s t : State} :
    AgreeOutsideRam s t ↔ ∃ m : Memory, m.rom0 = s.mem.rom0 ∧ m.romx = s.mem.romx ∧ t = { s with mem := m } := by
  constructor
  · intro h
    exact ⟨{ t.mem with rom0 := s.mem.rom0, romx := s.mem.romx }, rfl, rfl, h⟩
  · rintro ⟨m, h0, hx, rfl⟩
    rw [AgreeOutsideRam, ← h0, ← hx]

theorem AgreeOutsideRam.observe_eq {s t : State} (h : AgreeOutsideRam s t) : s.observe = t.observe := by
  rw [h]
  rfl

/-- A Memory with the same two ROM banks passes through a step: replacing it before or after is the same. -/
theorem step_withMem {s s' : State} {m : Memory} (h0 : m.rom0 = s.mem.rom0) (hx : m.romx = s.mem.romx)
    (h : step s = .next s') : step { s with mem := m } = .next { s' with mem := m } := by
  have hd' : { s with mem := m }.fetchDecode = s.fetchDecode := State.fetchDecode_congr rfl h0 hx rfl
  obtain ⟨hready, hcases⟩ := step_next_cases h
  have hready' : { s with mem := m }.fault = none := hready
  rcases hcases with ⟨i, hd, -⟩ | ⟨f, hd, rfl⟩
  · rw [step_ok hready hd] at h
    rw [step_ok hready' (hd'.trans hd)]
    exact exec_withMem m h
  · exact step_error hready' (hd'.trans hd)

theorem AgreeOutsideRam.step_next {s t s' : State} (h : AgreeOutsideRam s t) (hstep : step s = .next s') :
    ∃ t', step t = .next t' ∧ AgreeOutsideRam s' t' := by
  obtain ⟨m, h0, hx, rfl⟩ := agreeOutsideRam_iff.mp h
  refine ⟨_, step_withMem h0 hx hstep, agreeOutsideRam_iff.mpr ⟨m, ?_, ?_, rfl⟩⟩
  · rw [step_mem hstep, h0]
  · rw [step_mem hstep, hx]

/-- Settles O14: agreement outside the five regions is a simulation, and it leaves nothing of the observation out. -/
theorem ramRegionsAreUnobservable : Obligations.RamRegionsAreUnobservable := by
  intro k s t s' hagree hrun
  obtain ⟨t', hrun', hagree'⟩ := StepsTo_simulate (fun _ _ _ h hstep => h.step_next hstep) k s t s' hagree hrun
  exact ⟨t', hrun', hagree', hagree'.observe_eq⟩

/-! ### The invariant -/

theorem State.latchSound_of_clear {s : State} (h : s.fault = none) : s.LatchSound := by
  simp [State.LatchSound, h]

theorem State.latchSound_of_set {s : State} {f : CoreFault} (h : s.fault = some f)
    (hd : s.fetchDecode = .error f) : s.LatchSound := by
  simp [State.LatchSound, h, hd]

/-- Taking a fault leaves all that fetch and decode depend on. -/
theorem State.fetchDecode_raise (s : State) (f : CoreFault) : (s.raise f).fetchDecode = s.fetchDecode :=
  State.fetchDecode_congr rfl rfl rfl rfl

/-- The latch is sound after every step: execute leaves it clear, and a fault taken is the one reported at the
unmoved PC (R137). -/
theorem step_latchSound {s t : State} (h : step s = .next t) : t.LatchSound := by
  obtain ⟨hready, ⟨i, -, rfl⟩ | ⟨f, hd, rfl⟩⟩ := step_next_cases h
  · exact State.latchSound_of_clear (by rw [State.emit_fault, State.setPc_fault, hready])
  · exact State.latchSound_of_set rfl ((s.fetchDecode_raise f).trans hd)

theorem step_inv {s t : State} (hinv : s.Inv) (h : step s = .next t) : t.Inv := by
  obtain ⟨hwf, -⟩ := hinv
  exact ⟨step_mem h ▸ hwf, step_latchSound h⟩

/-- Settles O43: Memory is framed by the step, and the latch is sound after any step. -/
theorem stepKeepsInvariant : Obligations.StepKeepsInvariant := by
  intro s t hinv hstep
  obtain ⟨hsp, -⟩ := step_sameRegisters hstep
  exact ⟨step_inv hinv hstep, step_cfg hstep, hsp⟩

theorem State.construct_inv (cfg : Config) (rom : List Byte) : (State.construct cfg rom).Inv :=
  ⟨Memory.wf_load cfg.romFill rom, State.latchSound_of_clear (State.construct_fault cfg rom)⟩

/-- Settles O44: reset is the construction from the empty ROM buffer. -/
theorem resetMeetsInvariant : Obligations.ResetMeetsInvariant := State.construct_inv Config.default []

/-- Settles O45: construction meets the invariant and every step keeps it. -/
theorem everyRunMeetsInvariant : Obligations.EveryRunMeetsInvariant := by
  intro cfg rom k s hrun
  exact StepsTo_induct (fun _ _ => step_inv) k _ s (State.construct_inv cfg rom) hrun

/-! ### The latch (R35, R101, R102, R137, R138) -/

/-- Settles O35: the fault taken is the one reported, and a state with the latch set is stopped. -/
theorem faultEntryIsPrecise : Obligations.FaultEntryIsPrecise := by
  intro s t hstep hset
  obtain ⟨f, hd, rfl⟩ := step_faulted hstep hset
  exact ⟨f, hd, rfl, step_stopped (State.raise_fault s f)⟩

theorem step_ne_refused (s : State) (r : Refusal) : step s ≠ .refused r := by
  intro h
  cases hf : s.fault with
  | some f =>
    rw [step_stopped hf] at h
    cases h
  | none =>
    obtain ⟨t, hstep⟩ := step_enabled hf
    rw [hstep] at h
    cases h

/-- Settles O36: a ready step is enabled, and an enabled step was ready. -/
theorem stepEnabledIffLatchClear : Obligations.StepEnabledIffLatchClear := by
  refine ⟨fun s => ⟨?_, step_enabled⟩, step_ne_refused⟩
  rintro ⟨t, hstep⟩
  exact step_ready hstep

/-- Settles O37: execute is an update of PC and the trace, taking a fault one of the latch. -/
theorem stepChangesPcOrLatchOnly : Obligations.StepChangesPcOrLatchOnly := by
  intro s hready
  cases hd : s.fetchDecode with
  | ok i =>
    exact ⟨_, (step_ok hready hd).trans (exec_eq_update i s), .inl ⟨hready, rfl⟩⟩
  | error f =>
    exact ⟨_, step_error hready hd, .inr ⟨f, rfl⟩⟩

/-- A run of at least one step starts with the latch clear. -/
theorem StepsTo_ready {k : Nat} {s t : State} (h : StepsTo k s t) (hk : 0 < k) : s.fault = none := by
  cases k with
  | zero => exact absurd hk (Nat.lt_irrefl 0)
  | succ k =>
    obtain ⟨u, hstep, -⟩ := h
    exact step_ready hstep

/-- Settles O38: only the empty run starts at a set latch. -/
theorem latchIsWrittenOnceAndStops : Obligations.LatchIsWrittenOnceAndStops := by
  refine ⟨fun s f => step_stopped, fun k s t => StepsTo_ready, ?_⟩
  intro j k s t u _ hrun hset
  obtain rfl | hk := Nat.eq_zero_or_pos k
  · exact ⟨rfl, Eq.symm hrun⟩
  · exact absurd (StepsTo_ready hrun hk) hset

end Sys2Proof.Machine
end

section
/-! PROOFS. Encode and decode as inverses (30_encoding.md), and what fetch and decode read. First everything `decode`
accepts, then the bytes of an instruction given as one number, then the bytes at PC, each with its statements. -/

namespace Sys2Proof

open Sys2Proof.Machine

/-! ### Everything `decode` accepts -/

theorem decode_encode_append (i : Instr) (tail : List Byte) : decode (encode i ++ tail) = .ok (i, tail) := by
  cases i with
  | nop => exact decode_nop tail
  | jp lo hi => exact decode_jp lo hi tail

/-- Everything `decode` answers an instruction for: the encoding of that instruction, then the rest. -/
theorem eq_encode_append_of_decode {bytes tail : List Byte} {i : Instr} (h : decode bytes = .ok (i, tail)) :
    bytes = encode i ++ tail := by
  cases bytes with
  | nil => cases h
  | cons op rest =>
    by_cases h0 : op = 0x00#8
    · subst h0
      rw [decode_nop] at h
      cases h
      rfl
    · by_cases h1 : op = 0xC3#8
      · subst h1
        match rest, h with
        | [], h => cases h
        | [lo], h => cases h
        | lo :: hi :: rest, h =>
          rw [decode_jp] at h
          cases h
          rfl
      · rw [decode_other rest h0 h1] at h
        cases h

/-- Settles O19: `eq_encode_append_of_decode` is the statement. -/
theorem encodeInvertsDecode : Obligations.EncodeInvertsDecode := fun _ _ _ => eq_encode_append_of_decode

/-- The opcode byte alone decides the length of a well-formed sequence (R81). -/
theorem encodingWf_cons (op : Byte) (rest : List Byte) :
    encodingWf (op :: rest) = true ↔ opcodeLength op = some (rest.length + 1) := by
  simp only [encodingWf, checkEncoding]
  cases opcodeLength op with
  | none => simp
  | some n =>
    by_cases hn : rest.length + 1 = n
    · simp [hn]
    · simp [hn, Ne.symm hn]

theorem encodingWf_encode (i : Instr) : encodingWf (encode i) = true := by
  cases i with
  | nop =>
    obtain ⟨-, -, hwf⟩ := Laws.EncodingForm.nop
    exact hwf
  | jp lo hi =>
    obtain ⟨-, -, hwf⟩ := Laws.EncodingForm.jp lo hi
    exact hwf

/-- A well-formed sequence is the encoding of an instruction. -/
theorem exists_encode_of_encodingWf {bytes : List Byte} (h : encodingWf bytes = true) :
    ∃ i : Instr, bytes = encode i := by
  cases bytes with
  | nil => cases h
  | cons op rest =>
    rw [encodingWf_cons, opcodeLength] at h
    split at h
    · next h0 =>
      have hrest : rest = [] := List.eq_nil_of_length_eq_zero (by simpa using h.symm)
      exact ⟨.nop, by rw [h0, hrest]; rfl⟩
    · split at h
      · next h1 =>
        obtain ⟨lo, hi, hrest⟩ := List.length_eq_two.mp (show rest.length = 2 by simpa using h.symm)
        exact ⟨.jp lo hi, by rw [h1, hrest]; rfl⟩
      · cases h

/-- Settles O20: both sides say that the sequence is the encoding of an instruction. -/
theorem wellFormedBytesAreOneInstruction : Obligations.WellFormedBytesAreOneInstruction := by
  intro bytes
  constructor
  · intro hwf
    obtain ⟨i, rfl⟩ := exists_encode_of_encodingWf hwf
    exact ⟨i, List.append_nil (encode i) ▸ decode_encode_append i []⟩
  · rintro ⟨i, hdec⟩
    rw [eq_encode_append_of_decode hdec, List.append_nil]
    exact encodingWf_encode i

/-! ### An instruction as one number -/

/-- The three bytes of the number that a JP is in the opcode table. -/
theorem tableWordBytes_jp (lo hi : Byte) :
    tableWordBytes 24 (0xC3 + 0x100 * lo.toNat + 0x10000 * hi.toNat) = encode (.jp lo hi) := by
  have hlo := lo.isLt
  have hhi := hi.isLt
  have hmod : (0xC3 + 0x100 * lo.toNat + 0x10000 * hi.toNat) % 2 ^ 24 =
      0xC3 + 0x100 * lo.toNat + 0x10000 * hi.toNat := Nat.mod_eq_of_lt (by omega)
  simp only [tableWordBytes, hmod, encode, List.cons.injEq, and_true, ← BitVec.toNat_inj, BitVec.toNat_ofNat]
  omega

theorem decodeTableWord_of_bytes {nbits w : Nat} {i : Instr} (h : tableWordBytes nbits w = encode i) :
    decodeTableWord nbits w = some i := by
  rw [decodeTableWord, h, ← List.append_nil (encode i), decode_encode_append]

/-- A number that decodes has the bytes of the instruction, then the bytes of no instruction. -/
theorem tableWordBytes_of_decodeTableWord {nbits w : Nat} {i : Instr} (h : decodeTableWord nbits w = some i) :
    ∃ tail, tableWordBytes nbits w = encode i ++ tail := by
  unfold decodeTableWord at h
  split at h
  · next j tail hdec =>
    cases h
    exact ⟨tail, eq_encode_append_of_decode hdec⟩
  · cases h

/-- Settles O18: `decode_encode_append` for a list of bytes; for a number, its bytes are the encoding. -/
theorem decodeInvertsEncode : Obligations.DecodeInvertsEncode := by
  refine ⟨?bytes, ?nopWord, ?jpWord⟩
  case bytes =>
    intro i tail _
    exact decode_encode_append i tail
  case nopWord => decide
  case jpWord =>
    intro lo hi
    exact decodeTableWord_of_bytes (tableWordBytes_jp lo hi)

/-- Settles O17: the words are evaluated. -/
theorem specWordsDecodeAsWritten : Obligations.SpecWordsDecodeAsWritten :=
  ⟨rfl, rfl, rfl, rfl, rfl, rfl, by decide, by decide⟩

/-- Settles O16: both rows match on the whole byte, and their values differ. -/
theorem opcodeRowsDoNotOverlap : Obligations.OpcodeRowsDoNotOverlap := by
  simp only [Obligations.OpcodeRowsDoNotOverlap, opcodeMap, List.pairwise_pair, OpcodeRow.selects, beq_iff_eq]
  rintro op ⟨h0, h1⟩
  exact absurd (h0.symm.trans h1) (by decide)

/-- What an opcode byte decodes to depends on the operand reads only where it is 0xC3 (R84). -/
theorem decodeOpcode_congr {ε : Type} {operand operand' : Nat → Except ε Byte} (u : ε) {op : Byte}
    (h : op = 0xC3#8 → operand 1 = operand' 1 ∧ operand 2 = operand' 2) :
    decodeOpcode operand u op = decodeOpcode operand' u op := by
  by_cases h0 : op = 0x00#8
  · subst h0
    rw [decodeOpcode_nop, decodeOpcode_nop]
  · by_cases h1 : op = 0xC3#8
    · obtain ⟨hlo, hhi⟩ := h h1
      subst h1
      rw [decodeOpcode_jp, decodeOpcode_jp, hlo, hhi]
    · rw [decodeOpcode_other _ _ op h0 h1, decodeOpcode_other _ _ op h0 h1]

end Sys2Proof

namespace Sys2Proof.Machine

/-! ### The bytes at PC -/

theorem State.fetchDecode_of_fetch {s : State} {op : Byte} (h : s.memRead s.pc = .ok op) :
    s.fetchDecode = s.decodeFetched op := by
  rw [State.fetchDecode, State.fetch, h]

/-- Settles O31: the same opcode byte is decoded with the operand reads that it needs. -/
theorem decodeReadsOnlyItsOwnBytes : Obligations.DecodeReadsOnlyItsOwnBytes := by
  intro s t hpc hop hoperands
  rw [hpc] at hop hoperands
  cases hread : t.memRead t.pc with
  | error f =>
    have hread' : s.memRead s.pc = .error f := by rw [hpc, hop, hread]
    rw [State.fetchDecode_fetchFault hread, State.fetchDecode_fetchFault hread']
  | ok op =>
    have hread' : s.memRead s.pc = .ok op := by rw [hpc, hop, hread]
    rw [State.fetchDecode_of_fetch hread, State.fetchDecode_of_fetch hread', State.decodeFetched, State.decodeFetched,
      hpc]
    exact decodeOpcode_congr _ fun hjp => hoperands (by rw [hop, hread, hjp])

/-- Where the bytes from PC on are the encoding of an instruction, fetch and decode answer that instruction. -/
theorem State.fetchDecode_of_encode {s : State} {i : Instr}
    (h : ∀ n byte, (encode i)[n]? = some byte → s.memRead (add16 s.pc n) = .ok byte) :
    s.fetchDecode = .ok i := by
  have hpc : add16 s.pc 0 = s.pc := add16_zero s.pc
  cases i with
  | nop => exact State.fetchDecode_nop (hpc ▸ h 0 0x00#8 rfl)
  | jp lo hi => exact State.fetchDecode_jp (hpc ▸ h 0 0xC3#8 rfl) (h 1 lo rfl) (h 2 hi rfl)

/-- Settles O23: a ready step is execute of what fetch and decode answer. -/
theorem stepRunsDecodedInstruction : Obligations.StepRunsDecodedInstruction := by
  constructor
  · intro s i hready hd
    exact step_ok hready hd
  · intro s i hready _ hbytes
    exact step_ok hready (State.fetchDecode_of_encode hbytes)

/-- Settles O22: the jump's target composes the two halves of the address that the encoding holds. -/
theorem assembledJumpReachesItsOperand : Obligations.AssembledJumpReachesItsOperand := by
  intro a16 s
  obtain ⟨t, hexec, hpc⟩ := exec_jp_pc (lowByte a16) (highByte a16) s
  exact ⟨rfl, t, hexec, hpc.trans (concatBytes_highByte_lowByte a16)⟩

end Sys2Proof.Machine
end

section
/-! PROOFS. Registers, pair views and flags as storage (10_state.md). First the rules of register and pair writes, then
the bits of F under a flag write, each with its statements. -/

namespace Sys2Proof.Machine

/-! ### Register writes and pair views -/

/-- Settles O4: one lemma of the state per clause. -/
theorem registerStoresAnyByte : Obligations.RegisterStoresAnyByte := by
  intro s r v
  exact ⟨s.setR8_r8_same r v, fun r' hne => s.setR8_r8_other r r' v hne, s.setR8_pc r v, s.setR8_sp r v,
    s.setR8_fault r v, s.setR8_mem r v, s.setR8_trace r v, s.setR8_cfg r v⟩

/-- Writing back what was read changes nothing. -/
@[simp] theorem State.setR8_r8_self (s : State) (r : Reg) : s.setR8 r (s.r8 r) = s := by cases r <;> rfl

/-- A view's two registers are two. -/
theorem Pair.high_ne_low (p : Pair) : p.high ≠ p.low := by cases p <;> decide

@[simp] theorem State.setRp_r8_low (s : State) (p : Pair) (v : Word) : (s.setRp p v).r8 p.low = lowByte v :=
  State.setR8_r8_same _ _ _

@[simp] theorem State.setRp_r8_high (s : State) (p : Pair) (v : Word) : (s.setRp p v).r8 p.high = highByte v := by
  rw [State.setRp, State.setR8_r8_other _ _ _ _ p.high_ne_low, State.setR8_r8_same]

theorem State.setRp_r8_other (s : State) {p : Pair} {r : Reg} (v : Word) (hh : r ≠ p.high) (hl : r ≠ p.low) :
    (s.setRp p v).r8 r = s.r8 r := by
  rw [State.setRp, State.setR8_r8_other _ _ _ _ hl, State.setR8_r8_other _ _ _ _ hh]

@[simp] theorem State.highByte_rp (s : State) (p : Pair) : highByte (s.rp p) = s.r8 p.high :=
  highByte_concatBytes _ _

@[simp] theorem State.lowByte_rp (s : State) (p : Pair) : lowByte (s.rp p) = s.r8 p.low :=
  lowByte_concatBytes _ _

/-- A pair write reads back whole (R27). -/
theorem State.setRp_rp_same (s : State) (p : Pair) (v : Word) : (s.setRp p v).rp p = v := by
  rw [State.rp, State.setRp_r8_high, State.setRp_r8_low, concatBytes_highByte_lowByte]

/-- A view written back is two registers written back (R27). -/
theorem State.setRp_rp_self (s : State) (p : Pair) : s.setRp p (s.rp p) = s := by
  rw [State.setRp, State.highByte_rp, State.lowByte_rp, State.setR8_r8_self, State.setR8_r8_self]

/-- Settles O3: `State.setRp_rp_same` and `State.setRp_rp_self`. -/
theorem pairRoundTripBothWays : Obligations.PairRoundTripBothWays :=
  fun s p v => ⟨s.setRp_rp_same p v, s.setRp_rp_self p⟩

/-- The view a register lies in (table of R24). -/
def Reg.view : Reg → Pair
  | .a | .f => .af
  | .b | .c => .bc
  | .d | .e => .de
  | .h | .l => .hl

theorem Reg.mem_view_iff (r : Reg) (p : Pair) : (p.high = r ∨ p.low = r) ↔ p = r.view := by
  cases r <;> cases p <;> decide

/-- A view is its two registers: equal views have equal registers. -/
theorem State.r8_eq_of_rp_eq {s t : State} {p : Pair} (h : s.rp p = t.rp p) {r : Reg} (hr : p.high = r ∨ p.low = r) :
    s.r8 r = t.r8 r := by
  obtain rfl | rfl := hr
  · rw [← State.highByte_rp, h, State.highByte_rp]
  · rw [← State.lowByte_rp, h, State.lowByte_rp]

theorem State.setR8_rp_other (s : State) {r : Reg} {p : Pair} (v : Byte) (hh : p.high ≠ r) (hl : p.low ≠ r) :
    (s.setR8 r v).rp p = s.rp p := by
  rw [State.rp, State.setR8_r8_other _ _ _ _ hh, State.setR8_r8_other _ _ _ _ hl, State.rp]

theorem State.setR8_rp_ne (s : State) {r : Reg} {p : Pair} {v : Byte} (hr : p.high = r ∨ p.low = r)
    (hv : v ≠ s.r8 r) : (s.setR8 r v).rp p ≠ s.rp p := by
  intro h
  have hreg := State.r8_eq_of_rp_eq h hr
  rw [State.setR8_r8_same] at hreg
  exact hv hreg

/-- Different views share no register, so writes to them commute (R28). -/
theorem State.setRp_comm (s : State) {p q : Pair} (v w : Word) (h : p ≠ q) :
    (s.setRp p v).setRp q w = (s.setRp q w).setRp p v := by
  cases p <;> cases q <;> simp at h <;> rfl

/-- Settles O5: each register has its one view; a view sees a write exactly where it holds the register. -/
theorem pairViewsAliasOnlyTheirRegisters : Obligations.PairViewsAliasOnlyTheirRegisters := by
  refine ⟨?oneView, ?outside, ?inside, ?pairFrame, ?restFrame, ?commute⟩
  case oneView =>
    intro r
    exact ⟨r.view, (r.mem_view_iff _).mpr rfl, fun q => (r.mem_view_iff q).mp⟩
  case outside =>
    intro s r v p hh hl
    exact s.setR8_rp_other v hh hl
  case inside =>
    intro s r v p hr hv
    exact s.setR8_rp_ne hr hv
  case pairFrame =>
    intro s p v r hh hl
    exact s.setRp_r8_other v hh hl
  case restFrame =>
    intro s p v
    exact ⟨s.setRp_pc p v, s.setRp_sp p v, s.setRp_mem p v⟩
  case commute =>
    intro s p q v w hne
    exact s.setRp_comm v w hne

/-! ### Flags -/

theorem Flag.bit_inj {x y : Flag} (h : x.bit = y.bit) : x = y := by
  cases x <;> cases y <;> simp [Flag.bit] at h ⊢

/-- Every flag stands in the high nibble of F. -/
theorem Flag.bit_range (fl : Flag) : 4 ≤ fl.bit ∧ fl.bit < 8 := by cases fl <;> decide

theorem Flag.mask_getLsbD (fl : Flag) (j : Nat) : fl.mask.getLsbD j = decide (fl.bit = j) := by
  rw [Flag.mask, ← BitVec.twoPow_eq, BitVec.getLsbD_twoPow]
  simp [fl.bit_range]

theorem State.setFlag_f (s : State) (fl : Flag) (v : Bool) :
    (s.setFlag fl v).f = if v then s.f ||| fl.mask else s.f &&& ~~~fl.mask := rfl

/-- Each bit of F after a flag write (R29). -/
theorem State.setFlag_f_getLsbD (s : State) (fl : Flag) (v : Bool) {j : Nat} (hj : j < 8) :
    (s.setFlag fl v).f.getLsbD j = if fl.bit = j then v else s.f.getLsbD j := by
  rw [State.setFlag_f]
  by_cases hbit : fl.bit = j <;> cases v <;>
    simp [Flag.mask_getLsbD, hbit, hj, -BitVec.getLsbD_eq_getElem]

/-- Settles O6: the bits of F by `State.setFlag_f_getLsbD`; the write is one of F. -/
theorem flagWriteTouchesOneBit : Obligations.FlagWriteTouchesOneBit := by
  intro s fl v
  refine ⟨?same, ?other, ?lowNibble, _, rfl⟩
  case same =>
    rw [State.flag, State.setFlag_f_getLsbD s fl v fl.bit_range.2, if_pos rfl]
  case other =>
    intro fl' hne
    have hbit : fl.bit ≠ fl'.bit := fun h => hne (Flag.bit_inj h).symm
    rw [State.flag, State.setFlag_f_getLsbD s fl v fl'.bit_range.2, if_neg hbit, State.flag]
  case lowNibble =>
    apply BitVec.eq_of_getLsbD_eq
    intro j hj
    have hbit : fl.bit ≠ 0 + j := by have := fl.bit_range; omega
    rw [BitVec.getLsbD_extractLsb', BitVec.getLsbD_extractLsb', State.setFlag_f_getLsbD s fl v (by omega), if_neg hbit]

end Sys2Proof.Machine
end

section
/-! PROOFS. Memory contents (20_memory.md). First that the canonical form is unique, then what the ROM load puts where,
then the read interface and what it answers along a run, each with its statements. -/

namespace Sys2Proof.Machine

open Host (Cell)

/-! ### Uniqueness of the canonical form -/

/-- At and above the bound on its offsets a canonical list lists nothing. -/
theorem cellsRead_above {lo hi off : Nat} {cs : List Cell} (h : cellsWf lo hi cs = true) (hoff : hi ≤ off) :
    cellsRead cs off = unlistedByte := by
  induction cs generalizing lo with
  | nil => rfl
  | cons x cs ih =>
    obtain ⟨at', b⟩ := x
    obtain ⟨-, hlt, -, hrest⟩ := cellsWf_cons.mp h
    have hne : at' ≠ off := by omega
    rw [cellsRead, if_neg hne]
    exact ih hrest

/-- A Memory is its seven lists of cells. -/
theorem Memory.ext_cells {m n : Memory} (h : ∀ r : Region, m.cells r = n.cells r) : m = n := by
  obtain ⟨rom0, romx, vram, xram, wram, echo, oam⟩ := m
  obtain ⟨rfl, rfl, rfl, rfl, rfl, rfl, rfl⟩ :
      rom0 = n.rom0 ∧ romx = n.romx ∧ vram = n.vram ∧ xram = n.xram ∧ wram = n.wram ∧ echo = n.echo ∧ oam = n.oam :=
    ⟨h .rom0, h .romx, h .vram, h .xram, h .wram, h .echo, h .oam⟩
  rfl

/-- Settles O13: region by region, canonical lists that read alike inside the region read alike everywhere. -/
theorem canonicalMemoryIsUnique : Obligations.CanonicalMemoryIsUnique := by
  intro m n hm hn hread
  apply Memory.ext_cells
  intro r
  have hmr := (Memory.wf_iff m).mp hm r
  have hnr := (Memory.wf_iff n).mp hn r
  apply cells_ext hmr hnr
  intro off
  by_cases hoff : off < r.size
  · have h := hread r off
    rw [Memory.regionRead_of_lt m hoff, Memory.regionRead_of_lt n hoff] at h
    exact Option.some.inj h
  · rw [cellsRead_above hmr (Nat.not_lt.mp hoff), cellsRead_above hnr (Nat.not_lt.mp hoff)]

/-! ### What the ROM load puts where -/

/-- Position `i` of the fixed bank is position `i` of the image (R52). -/
theorem Memory.cellsRead_load_rom0 (fill : Byte) (rom : List Byte) {i : Nat} (hi : i < 0x4000) :
    cellsRead (Memory.load fill rom).rom0 i = rom.getD i fill := by
  have hread := cellsRead_cellsOfBytes 0 ((romImage fill rom).take romBankSize) i
  rw [Nat.zero_add] at hread
  rw [← romImage_getD fill rom (show i < romImageMax by simp only [romImageMax]; omega)]
  rw [show (Memory.load fill rom).rom0 = cellsOfBytes 0 ((romImage fill rom).take romBankSize) from rfl, hread]
  rw [List.getD_eq_getElem?_getD, List.getElem?_take_of_lt (show i < romBankSize from hi), List.getD_eq_getElem?_getD]

/-- Position `i` of the switchable bank is position `0x4000 + i` of the image (R52). -/
theorem Memory.cellsRead_load_romx (fill : Byte) (rom : List Byte) {i : Nat} (hi : i < 0x4000) :
    cellsRead (Memory.load fill rom).romx i = rom.getD (0x4000 + i) fill := by
  have hread := cellsRead_cellsOfBytes 0 ((romImage fill rom).drop romBankSize) i
  rw [Nat.zero_add] at hread
  rw [← romImage_getD fill rom (show 0x4000 + i < romImageMax by simp only [romImageMax]; omega)]
  rw [show (Memory.load fill rom).romx = cellsOfBytes 0 ((romImage fill rom).drop romBankSize) from rfl, hread]
  rw [List.getD_eq_getElem?_getD, List.getElem?_drop, List.getD_eq_getElem?_getD, romBankSize]

theorem romImage_take (fill : Byte) (rom : List Byte) : romImage fill (rom.take romImageMax) = romImage fill rom := by
  rw [romImage, romImage, List.take_take, Nat.min_self]

/-- Both banks after the load (R52), as R55 reads them. -/
theorem Memory.regionRead_load (fill : Byte) (rom : List Byte) {i : Nat} (hi : i < 0x4000) :
    (Memory.load fill rom).regionRead .rom0 i = some (rom.getD i fill) ∧
    (Memory.load fill rom).regionRead .romx i = some (rom.getD (0x4000 + i) fill) :=
  ⟨(Memory.regionRead_of_lt _ hi).trans (congrArg some (Memory.cellsRead_load_rom0 fill rom hi)),
    (Memory.regionRead_of_lt _ hi).trans (congrArg some (Memory.cellsRead_load_romx fill rom hi))⟩

/-- Settles O9: `Memory.regionRead_load`, and the load reads the source through its image alone. -/
theorem romLoadFillsBothBanks : Obligations.RomLoadFillsBothBanks := by
  intro fill rom
  refine ⟨fun i hi => Memory.regionRead_load fill rom hi, ?_⟩
  have himage : romImage fill (rom.take 0x8000) = romImage fill rom := romImage_take fill rom
  rw [Memory.load, Memory.load, himage]

/-! ### The read interface -/

theorem State.memRead_of_locate_none {s : State} {addr : Word} (h : s.locate addr = none) :
    s.memRead addr = .error (.outOfRangeAccess addr) := by
  rw [State.memRead, h]

/-- An address located in a region reads the region's byte there (R56). -/
theorem State.memRead_of_regionRead {s : State} {addr : Word} {r : Region} {off : Nat} {b : Byte}
    (hl : s.locate addr = some (r, off)) (hb : s.mem.regionRead r off = some b) : s.memRead addr = .ok b := by
  rw [State.memRead, hl]
  simp only [hb]

/-- A located address reads a byte, the one the region read gives (R56). -/
theorem State.exists_regionRead_of_locate {s : State} {addr : Word} {r : Region} {off : Nat}
    (hl : s.locate addr = some (r, off)) : ∃ b, s.mem.regionRead r off = some b ∧ s.memRead addr = .ok b :=
  ⟨_, Memory.regionRead_of_lt s.mem (State.locate_in_range hl), State.memRead_of_locate hl⟩

/-- Settles O7: the range check of a region, and the offsets the interface computes. -/
theorem regionReadStaysInBounds : Obligations.RegionReadStaysInBounds := by
  refine ⟨?read, ?size, ?range, ?fault⟩
  case read =>
    intro m r off
    exact ⟨Memory.regionRead_of_lt m, Memory.regionRead_of_ge m⟩
  case size =>
    intro r
    cases r <;> rfl
  case range =>
    intro s addr r off hl
    exact State.locate_in_range hl
  case fault =>
    intro s addr hl
    exact State.memRead_of_locate_none hl

/-- Settles O8: the address is located in one of the banks or is outside the window. -/
theorem readInterfaceFollowsAddressMap : Obligations.ReadInterfaceFollowsAddressMap := by
  intro s addr
  refine ⟨?fixed, ?switchable, ?narrow, ?above⟩
  case fixed =>
    intro hlt
    exact State.exists_regionRead_of_locate (State.locate_rom0 hlt)
  case switchable =>
    intro htop hge hlt
    exact State.exists_regionRead_of_locate (State.locate_romx hge (by rw [htop]; exact hlt))
  case narrow =>
    intro htop hge
    exact State.memRead_outside (by rw [htop]; exact hge)
  case above =>
    intro hge
    have htop := windowTop_toNat s.cfg
    exact State.memRead_outside (by omega)

/-- In the constructed state an address inside the window reads its image byte, in either bank. -/
theorem State.construct_memRead (cfg : Config) (rom : List Byte) {addr : Word}
    (h : addr.toNat < cfg.romWindowTop.addr.toNat) :
    (State.construct cfg rom).memRead addr = .ok (rom.getD addr.toNat cfg.romFill) := by
  by_cases h0 : addr.toNat < 0x4000
  · rw [State.memRead_rom0 h0, State.construct_mem, Memory.cellsRead_load_rom0 _ _ h0]
  · have hge : 0x4000 ≤ addr.toNat := Nat.not_lt.mp h0
    have hoff : addr.toNat - 0x4000 < 0x4000 := by have := windowTop_toNat cfg; omega
    rw [State.memRead_romx hge h, State.construct_mem, Memory.cellsRead_load_romx _ _ hoff, Nat.add_sub_cancel' hge]

/-- No run changes what a read answers. -/
theorem StepsTo_memRead {k : Nat} {s t : State} (h : StepsTo k s t) (addr : Word) :
    t.memRead addr = s.memRead addr :=
  State.memRead_congr addr (by rw [StepsTo_mem h]) (by rw [StepsTo_mem h]) (by rw [StepsTo_cfg h])

/-- Settles O12: the reads of a run are those of its first state. -/
theorem fetchCoherentWithImage : Obligations.FetchCoherentWithImage := by
  intro cfg rom k s addr hrun hin
  rw [StepsTo_memRead hrun, State.construct_memRead cfg rom hin]

end Sys2Proof.Machine
end

section
/-! PROOFS. The sequence of PC values, the faults and the trace (40_cycle.md, 42_jp.md, 60_exceptions.md). First where
a readable address and its successors are, then each statement after the lemmas it needs. -/

namespace Sys2Proof.Machine

/-! ### Readable addresses -/

theorem State.lt_windowTop_of_memRead {s : State} {addr : Word} {b : Byte} (h : s.memRead addr = .ok b) :
    addr.toNat < s.cfg.romWindowTop.addr.toNat :=
  State.memRead_isOk_iff.mp ⟨b, h⟩

/-- A readable address is below 0x8000 under either window top. -/
theorem State.lt_of_memRead {s : State} {addr : Word} {b : Byte} (h : s.memRead addr = .ok b) :
    addr.toNat < 0x8000 := by
  have hlt := State.lt_windowTop_of_memRead h
  have htop := windowTop_toNat s.cfg
  omega

/-- From a readable address the additions of an instruction do not wrap (decision D5). -/
theorem State.add16_toNat_of_memRead {s : State} {addr : Word} {b : Byte} (h : s.memRead addr = .ok b) {n : Nat}
    (hn : n ≤ 2) : (add16 addr n).toNat = addr.toNat + n := by
  have hlt := State.lt_of_memRead h
  exact add16_toNat_of_lt addr n (by omega)

/-! ### What moves PC (R33, R112) -/

/-- Settles O29: a fault leaves PC; NOP's PC is one greater, without wrapping since the opcode was readable; JP's is
the target. -/
theorem pcMovesByNopOrJpOnly : Obligations.PcMovesByNopOrJpOnly := by
  intro s t hstep
  by_cases hclear : t.fault = none
  · obtain ⟨i, hd, hexec⟩ := step_executed hstep hclear
    obtain ⟨hop, rfl⟩ | ⟨lo, hi, hop, hlo, hhi, rfl⟩ := State.fetchDecode_ok_cases hd
    · rw [exec_nop] at hexec
      cases hexec
      refine .inr (.inl ⟨hclear, hop, ?_, State.lt_of_memRead hop⟩)
      rw [State.afterNop_pc, State.add16_toNat_of_memRead hop (by decide)]
    · rw [exec_jp] at hexec
      cases hexec
      exact .inr (.inr ⟨hclear, lo, hi, hop, hlo, hhi, State.afterJp_pc s lo hi⟩)
  · obtain ⟨f, -, rfl⟩ := step_faulted hstep hclear
    exact .inl ⟨hclear, State.raise_pc s f⟩

/-! ### The trace (R109) -/

/-- An executed step emits the event of its instruction, and with `TRACE_ENABLE` false none. -/
theorem exec_trace {i : Instr} {s t : State} (h : exec i s = .next t) :
    t.trace = if s.cfg.traceEnable then eventOf i :: s.trace else s.trace := by
  rw [exec_eq_update] at h
  cases h
  rfl

theorem step_trace_of_off {s t : State} (h : step s = .next t) (hoff : s.cfg.traceEnable = false) :
    t.trace = s.trace := by
  by_cases hclear : t.fault = none
  · obtain ⟨i, -, hexec⟩ := step_executed h hclear
    simp [exec_trace hexec, hoff]
  · obtain ⟨f, -, rfl⟩ := step_faulted h hclear
    exact State.raise_trace s f

/-- Neither the trace nor `TRACE_ENABLE` bears on anything of the next state but the trace. -/
theorem step_withTrace {s t : State} (events : List TraceEvent) (on : Bool) (h : step s = .next t) :
    ∃ events', step { s with trace := events, cfg := { s.cfg with traceEnable := on } } =
      .next { t with trace := events', cfg := { s.cfg with traceEnable := on } } := by
  have hd' : { s with trace := events, cfg := { s.cfg with traceEnable := on } }.fetchDecode = s.fetchDecode :=
    State.fetchDecode_congr rfl rfl rfl rfl
  obtain ⟨hready, hcases⟩ := step_next_cases h
  have hready' : { s with trace := events, cfg := { s.cfg with traceEnable := on } }.fault = none := hready
  rcases hcases with ⟨i, hd, -⟩ | ⟨f, hd, rfl⟩
  · rw [step_ok hready hd, exec_eq_update] at h
    rw [step_ok hready' (hd'.trans hd), exec_eq_update]
    cases h
    exact ⟨_, rfl⟩
  · exact ⟨events, step_error hready' (hd'.trans hd)⟩

/-- Settles O30: the event of a step by `exec_trace`, that it bears on nothing by `step_withTrace`. -/
theorem traceRecordsExecutedInstructions : Obligations.TraceRecordsExecutedInstructions := by
  refine ⟨?none, ?one, ?noEffect⟩
  case none =>
    rintro s t hstep (hset | hoff)
    · obtain ⟨f, -, rfl⟩ := step_faulted hstep hset
      exact State.raise_trace s f
    · exact step_trace_of_off hstep hoff
  case one =>
    intro s t hstep hclear hon
    obtain ⟨i, hd, hexec⟩ := step_executed hstep hclear
    have htrace : t.trace = eventOf i :: s.trace := by rw [exec_trace hexec, if_pos hon]
    obtain ⟨hop, rfl⟩ | ⟨lo, hi, hop, -, -, rfl⟩ := State.fetchDecode_ok_cases hd
    · exact .inl ⟨hop, htrace⟩
    · rw [exec_jp] at hexec
      cases hexec
      exact .inr ⟨hop, htrace.trans (by rw [State.afterJp_pc, eventOf])⟩
  case noEffect =>
    intro s t events on hstep
    exact step_withTrace events on hstep

/-! ### The first fault reached (R136) -/

/-- A ready step only takes the fault `f` exactly when fetch and decode report it. -/
theorem step_eq_raise_iff {s : State} {f : CoreFault} (hready : s.fault = none) :
    step s = .next (s.raise f) ↔ s.fetchDecode = .error f := by
  constructor
  · intro hstep
    obtain ⟨g, hd, heq⟩ := step_faulted hstep (by simp)
    have hfg : f = g := Option.some.inj (congrArg State.fault heq)
    rw [hfg, hd]
  · exact step_error hready

/-- Everything fetch and decode can fail with, by the position of PC in the window (R136). -/
theorem State.fetchDecode_error_iff {s : State} {f : CoreFault} :
    s.fetchDecode = .error f ↔
      (s.cfg.romWindowTop.addr.toNat ≤ s.pc.toNat ∧ f = .outOfRangeAccess s.pc) ∨
      (∃ op : Byte, s.memRead s.pc = .ok op ∧ op ≠ 0x00#8 ∧ op ≠ 0xC3#8 ∧ f = .unimplementedOpcode op s.pc) ∨
      (s.memRead s.pc = .ok 0xC3#8 ∧ s.cfg.romWindowTop.addr.toNat = s.pc.toNat + 1 ∧
        f = .outOfRangeAccess (add16 s.pc 1)) ∨
      (s.memRead s.pc = .ok 0xC3#8 ∧ s.cfg.romWindowTop.addr.toNat = s.pc.toNat + 2 ∧
        f = .outOfRangeAccess (add16 s.pc 2)) := by
  constructor
  · intro h
    obtain hop | hop | ⟨hop, hlo⟩ | ⟨hop, ⟨lo, hlo⟩, hhi⟩ := State.fetchDecode_error_cases h
    · exact .inl (State.memRead_error_iff.mp hop)
    · exact .inr (.inl hop)
    · obtain ⟨hout, rfl⟩ := State.memRead_error_iff.mp hlo
      have hin := State.lt_windowTop_of_memRead hop
      rw [State.add16_toNat_of_memRead hop (by decide)] at hout
      exact .inr (.inr (.inl ⟨hop, by omega, rfl⟩))
    · obtain ⟨hout, rfl⟩ := State.memRead_error_iff.mp hhi
      have hin := State.lt_windowTop_of_memRead hlo
      rw [State.add16_toNat_of_memRead hop (by decide)] at hin hout
      exact .inr (.inr (.inr ⟨hop, by omega, rfl⟩))
  · rintro (⟨hout, rfl⟩ | ⟨op, hop, h0, h1, rfl⟩ | ⟨hop, htop, rfl⟩ | ⟨hop, htop, rfl⟩)
    · exact State.fetchDecode_fetchFault (State.memRead_outside hout)
    · exact State.fetchDecode_unimplemented hop h0 h1
    · have hlow := State.add16_toNat_of_memRead hop (n := 1) (by decide)
      exact State.fetchDecode_lowFault hop (State.memRead_outside (by omega))
    · have hlow := State.add16_toNat_of_memRead hop (n := 1) (by decide)
      have hhigh := State.add16_toNat_of_memRead hop (n := 2) (by decide)
      have hin : (add16 s.pc 1).toNat < s.cfg.romWindowTop.addr.toNat := by omega
      obtain ⟨lo, hlo⟩ := State.memRead_isOk_iff.mpr hin
      exact State.fetchDecode_highFault hop hlo (State.memRead_outside (by omega))

/-- Settles O34: the faults a step takes are those that fetch and decode report. -/
theorem firstFaultingReadIsReported : Obligations.FirstFaultingReadIsReported := by
  intro s f hready
  exact (step_eq_raise_iff hready).trans State.fetchDecode_error_iff

/-! ### A JP across the bank boundary (R121 (5)) -/

/-- Settles O28: the operands are at 0x4000 and 0x4001, the first two bytes of the switchable bank when the window
reaches them. -/
theorem jumpStraddlesBankBoundary : Obligations.JumpStraddlesBankBoundary := by
  intro s lo hi hready hpc hrom0 hlo hhi
  have hlow : add16 s.pc 1 = 0x4000#16 := by rw [hpc]; rfl
  have hhigh : add16 s.pc 2 = 0x4001#16 := by rw [hpc]; rfl
  have hop : s.memRead s.pc = .ok 0xC3#8 := by
    rw [hpc]
    exact State.memRead_of_regionRead (State.locate_rom0 (by decide)) hrom0
  constructor
  · intro htop
    have hwindow : s.cfg.romWindowTop.addr.toNat = 0x8000 := by rw [htop]; rfl
    apply step_eq_exec_jp hready hop
    · rw [hlow]
      exact State.memRead_of_regionRead (State.locate_romx (by decide) (by rw [hwindow]; decide)) hlo
    · rw [hhigh]
      exact State.memRead_of_regionRead (State.locate_romx (by decide) (by rw [hwindow]; decide)) hhi
  · intro htop
    have hstep := step_jp_lowOutside hready hop (by rw [hlow, htop]; decide)
    rwa [hlow] at hstep

/-! ### A JP to its own address (R121 (1)) -/

@[simp] theorem State.emit_memRead (s : State) (ev : TraceEvent) (addr : Word) :
    (s.emit ev).memRead addr = s.memRead addr :=
  State.memRead_congr addr (by simp) (by simp) (by simp)

/-- The state after `k` jumps to PC itself: `k` more events when the trace is on. -/
def State.afterSelfJumps (s : State) (k : Nat) : State :=
  { s with trace := (if s.cfg.traceEnable then List.replicate k (.traceJump s.pc) else []) ++ s.trace }

theorem State.afterSelfJumps_zero (s : State) : s.afterSelfJumps 0 = s := by
  simp [State.afterSelfJumps]

theorem State.afterSelfJumps_succ (s : State) (k : Nat) :
    s.afterSelfJumps (k + 1) = (s.emit (.traceJump s.pc)).afterSelfJumps k := by
  rw [State.emit_eq]
  by_cases hon : s.cfg.traceEnable = true
  · simp [State.afterSelfJumps, hon, List.replicate_succ']
  · simp [State.afterSelfJumps, hon]

/-- A JP whose operands compose its own address emits its event and leaves the rest as it was. -/
theorem step_selfJump {s : State} (hready : s.fault = none) (hop : s.memRead s.pc = .ok 0xC3#8)
    (hlo : s.memRead (add16 s.pc 1) = .ok (lowByte s.pc)) (hhi : s.memRead (add16 s.pc 2) = .ok (highByte s.pc)) :
    step s = .next (s.emit (.traceJump s.pc)) := by
  have htarget : jumpTarget (lowByte s.pc) (highByte s.pc) = s.pc := concatBytes_highByte_lowByte s.pc
  rw [step_jp hready hop hlo hhi, State.afterJp, htarget]
  rfl

/-- Settles O27: by induction on the number of steps, each `step_selfJump`. -/
theorem selfJumpRepeatsForever : Obligations.SelfJumpRepeatsForever := by
  intro s k hready hop hlo hhi
  change StepsTo k s (s.afterSelfJumps k)
  induction k generalizing s with
  | zero => exact s.afterSelfJumps_zero.symm
  | succ k ih =>
    refine ⟨_, step_selfJump hready hop hlo hhi, ?_⟩
    rw [State.afterSelfJumps_succ]
    apply ih
    · rw [State.emit_fault, hready]
    · rw [State.emit_memRead, State.emit_pc, hop]
    · rw [State.emit_memRead, State.emit_pc, hlo]
    · rw [State.emit_memRead, State.emit_pc, hhi]

end Sys2Proof.Machine
end

section
/-! PROOFS. Launch and reset (10_state.md R40, 60_exceptions.md R133, 70_reset_and_hazards.md R161). -/

namespace Sys2Proof.Machine

@[simp] theorem State.construct_rp (cfg : Config) (rom : List Byte) (p : Pair) :
    (State.construct cfg rom).rp p = 0x0000#16 := by
  rw [State.rp, State.construct_r8, State.construct_r8]
  rfl

/-- Settles O39: the fields of the constructed state, and what the load puts in each region. -/
theorem resetLeavesTheTableOfValues : Obligations.ResetLeavesTheTableOfValues := by
  rintro cfg rom s rfl
  refine ⟨fun r => State.construct_r8 r cfg rom, State.construct_rp cfg rom, rfl, rfl, rfl, ?banks, ?ram⟩
  case banks =>
    intro i hi
    exact Memory.regionRead_load cfg.romFill rom hi
  case ram =>
    intro r off h0 hx hoff
    exact ramRegionsStartZero cfg.romFill rom r off h0 hx hoff

/-- Settles O40: reset is construction at the state's parameters, which a run keeps, as it keeps Memory. -/
theorem resetRestartsTheMachine : Obligations.ResetRestartsTheMachine := by
  constructor
  · intro s rom
    refine ⟨rfl, rfl, step_enabled (State.construct_fault s.cfg rom), ?_⟩
    intro s' hcfg
    rw [State.applyReset, State.applyReset, hcfg]
  · intro cfg rom k s hrun
    have hreset : s.applyReset rom = State.construct cfg rom := by
      rw [State.applyReset, StepsTo_cfg hrun, State.construct_cfg]
    exact ⟨hreset, by rw [hreset, StepsTo_mem hrun]⟩

theorem loadCondition_some_iff (rom : List Byte) :
    loadCondition (some rom) = some .romTruncated ↔ rom.length < romImageMax := by
  simp [loadCondition]

/-- Settles O41: a launch is a construction exactly where there is a buffer; the length is compared with 0x8000. -/
theorem loadConditionsAreNotCoreFaults : Obligations.LoadConditionsAreNotCoreFaults := by
  constructor
  · intro cfg
    exact ⟨rfl, rfl⟩
  · intro cfg rom
    exact ⟨_, rfl, State.construct_fault cfg rom, loadCondition_some_iff rom⟩

end Sys2Proof.Machine
end

section
/-! PROOFS. The loader's stand-in (log entry 14): placing bytes changes Memory alone, the bytes placed are those read,
and the next step runs the instruction they encode. -/

namespace Sys2Proof.Machine

theorem State.placeBytes_eq (s : State) (addr : Word) (bytes : List Byte) :
    s.placeBytes addr bytes = { s with mem := (s.placeBytes addr bytes).mem } := by
  induction bytes generalizing s addr with
  | nil => rfl
  | cons byte rest ih => rw [State.placeBytes, ih, State.placeByte_eq]

@[simp] theorem State.placeBytes_pc (s : State) (addr : Word) (bytes : List Byte) :
    (s.placeBytes addr bytes).pc = s.pc := by
  rw [State.placeBytes_eq]

@[simp] theorem State.placeBytes_fault (s : State) (addr : Word) (bytes : List Byte) :
    (s.placeBytes addr bytes).fault = s.fault := by
  rw [State.placeBytes_eq]

theorem State.wf_placeBytes {s : State} (addr : Word) (bytes : List Byte) (h : s.mem.wf = true) :
    (s.placeBytes addr bytes).mem.wf = true := by
  induction bytes generalizing s addr with
  | nil => exact h
  | cons byte rest ih => exact ih (add16 addr 1) (State.wf_placeByte addr byte h)

/-- Where the addresses do not wrap, placing bytes from `addr` on leaves every read below it. -/
theorem State.memRead_placeBytes_below {s : State} {addr x : Word} (bytes : List Byte) (hx : x.toNat < addr.toNat)
    (hwrap : addr.toNat + bytes.length < 0x10000) : (s.placeBytes addr bytes).memRead x = s.memRead x := by
  induction bytes generalizing s addr with
  | nil => rfl
  | cons byte rest ih =>
    rw [List.length_cons] at hwrap
    have hnext := add16_toNat_of_lt addr 1 (by omega)
    have hne : x ≠ addr := by
      rintro rfl
      exact Nat.lt_irrefl _ hx
    rw [State.placeBytes, ih (by omega) (by omega), State.memRead_placeByte_other byte hne]

/-- Inside the window each byte placed is the byte read at its distance from `addr`. -/
theorem State.memRead_placeBytes {s : State} {addr : Word} {bytes : List Byte} {n : Nat} {b : Byte}
    (hwf : s.mem.wf = true) (hroom : addr.toNat + bytes.length ≤ s.cfg.romWindowTop.addr.toNat)
    (hb : bytes[n]? = some b) : (s.placeBytes addr bytes).memRead (add16 addr n) = .ok b := by
  induction bytes generalizing s addr n with
  | nil => cases hb
  | cons byte rest ih =>
    rw [List.length_cons] at hroom
    have htop := windowTop_toNat s.cfg
    have hnext := add16_toNat_of_lt addr 1 (by omega)
    cases n with
    | zero =>
      rw [List.getElem?_cons_zero] at hb
      cases hb
      rw [add16_zero, State.placeBytes, State.memRead_placeBytes_below rest (by omega) (by omega),
        State.memRead_placeByte_same b hwf (by omega)]
    | succ n =>
      rw [List.getElem?_cons_succ] at hb
      rw [Nat.add_comm n 1, ← add16_add16]
      exact ih (State.wf_placeByte addr byte hwf) (by rw [State.placeByte_cfg]; omega) hb

/-- The number's bytes are the instruction's encoding and what follows it, so fetch and decode answer the
instruction. -/
theorem State.fetchDecode_withFetchWord {s : State} {nbits w : Nat} {i : Instr} (hwf : s.mem.wf = true)
    (hroom : s.pc.toNat + 2 < s.cfg.romWindowTop.addr.toNat) (hdec : decodeTableWord nbits w = some i) :
    (s.withFetchWord nbits w).fetchDecode = .ok i := by
  obtain ⟨tail, hbytes⟩ := tableWordBytes_of_decodeTableWord hdec
  apply State.fetchDecode_of_encode
  intro n byte hbyte
  rw [State.withFetchWord, State.placeBytes_pc]
  apply State.memRead_placeBytes hwf
  · exact hroom
  · obtain ⟨hlt, -⟩ := List.getElem?_eq_some_iff.mp hbyte
    rw [hbytes, List.getElem?_append_left hlt, hbyte]

/-- Settles O46: a ready step runs what fetch and decode answer, and placing changes Memory alone. -/
theorem placedInstructionIsRunNext : Obligations.PlacedInstructionIsRunNext := by
  intro s nbits w i hready hwf hroom hdec
  have hready' : (s.withFetchWord nbits w).fault = none := by
    rw [State.withFetchWord, State.placeBytes_fault, hready]
  exact ⟨step_ok hready' (State.fetchDecode_withFetchWord hwf hroom hdec),
    State.placeBytes_eq s s.pc (tableWordBytes nbits w), State.wf_placeBytes s.pc (tableWordBytes nbits w) hwf⟩

end Sys2Proof.Machine
end
